-- ==== Sys2Proof/Word.lean ====
section
/-! DEFINITION. The word types of the block (00_scope.md R7: every value is an unsigned integer of a stated width). -/

namespace Sys2Proof

/-- `u8`: a packet byte, an operand field of a request (R7, R45). -/
abbrev Byte := BitVec 8

/-- `u16`: the accumulator, a checksum, the value field of a response (R7, R14, R49). -/
abbrev Word16 := BitVec 16

/-- `u24`: a request word (R45). -/
abbrev RequestWord := BitVec 24

/-- `u80`: a packet as one word, byte 0 most significant (R51). -/
abbrev PacketWord := BitVec 80

end Sys2Proof
end

