-- ==== Sys2Proof/Config.lean ====
section
/-! DEFINITION. The parameters of 00_scope.md R6 with the one admitted value of each, and the opaque constants for what
the spec leaves to the host's software (`fp_round` and the edges of line scanning). `pin_protocol` and `T_op` are used by
no rule and have no field (log entry 9). -/

namespace Sys2Proof

/-- The parameters of R6. `xorOut`, `refIn` and `refOut` record that the CRC has no final XOR and reflects nothing:
`Laws.Crc` relates them to `Machine.crc16`. -/
structure Config where
  /-- `CRC_WIDTH` -/
  crcWidth : Nat
  /-- `POLY` -/
  poly : Word16
  /-- `INIT` -/
  init : Word16
  /-- `XOROUT`: none, that is 0x0000 -/
  xorOut : Word16
  /-- `REFIN` -/
  refIn : Bool
  /-- `REFOUT` -/
  refOut : Bool
  /-- `PKT_LEN` -/
  pktLen : Nat
  /-- `LEN_DEFAULT` -/
  lenDefault : Nat
  /-- `LEN_MIN` -/
  lenMin : Nat
  /-- `LEN_MAX` -/
  lenMax : Nat
  /-- `TAG_TEMP` -/
  tagTemp : BitVec 4
  /-- `TAG_HUM` -/
  tagHum : BitVec 4
  /-- `TAG_RAIN` -/
  tagRain : BitVec 4
  /-- `BYTE_WIND_SPEED` -/
  byteWindSpeed : Nat
  /-- `BYTE_WIND_DIR` -/
  byteWindDir : Nat
  /-- `BYTE_FIELD_A` -/
  byteFieldA : Nat
  /-- `BYTE_FIELD_B` -/
  byteFieldB : Nat
  /-- `RAIN_MASK` -/
  rainMask : Byte
  /-- request width in bits (D3) -/
  requestWidth : Nat
  /-- response width in bits (D4) -/
  responseWidth : Nat
deriving DecidableEq, Repr

/-- The one admitted value of every parameter (R6). -/
abbrev config : Config where
  crcWidth := 16
  poly := 0x1021
  init := 0x0000
  xorOut := 0x0000
  refIn := false
  refOut := false
  pktLen := 10
  lenDefault := 8
  lenMin := 1
  lenMax := 10
  tagTemp := 0x8
  tagHum := 0xA
  tagRain := 0xE
  byteWindSpeed := 1
  byteWindDir := 2
  byteFieldA := 3
  byteFieldB := 4
  rainMask := 0x7F
  requestWidth := 24
  responseWidth := 20

/-- `fp_round` (R123, D22): how a host rounds the exact rational of a unit conversion. OPEN, so it has no body.
DESIGN CHOICE safe: log entry 10. -/
opaque Config.fpRound : Rat → Rat

/-- What the Frame Scanner makes of a byte token whose reading 91_not_in_source.md N10 leaves open (more than two
hexadecimal digits, a sign, a `0x` mark): a byte, or a token that fails to parse. No body: log entry 11, safe. -/
opaque Config.openHexToken : List Char → Option Byte

/-- What the Frame Scanner makes of a timestamp token of a decimal floating-point form N10 leaves open (sign, exponent,
`nan`, `inf`, a missing digit part). No body: log entry 11, safe. -/
opaque Config.openTimestamp : List Char → Option Rat

/-- Whether white space before the leading dots is stripped before the `Search` test (N10 leaves it open). No body: log
entry 12, safe. -/
opaque Config.scannerTrimsBeforeDots : Bool

/-- Whether white space between the leading dots and the first token is stripped before the `Search` test (N10 leaves it
open). No body: log entry 12, safe. -/
opaque Config.scannerTrimsAfterDots : Bool

end Sys2Proof
end

