-- ==== Sys2Proof/Syntax.lean ====
section
/-! DEFINITION. The instructions: one constructor for each of the 33 rows of spec/opcode_table.json, seventeen request
operations (30_encoding.md R47) and sixteen packet rows (R51, R52). -/

namespace Sys2Proof

/-- The fields of a packet word other than its type tag (R51): `x0` byte 0 bits 3:0, `ws` byte 1, `wd` byte 2, `b3`,
`b4` the data field, `x5` bytes 5 to 7 (byte 5 most significant), `ck` bytes 8 and 9 (byte 8 most significant). -/
structure PacketFields where
  x0 : BitVec 4
  ws : Byte
  wd : Byte
  b3 : Byte
  b4 : Byte
  x5 : BitVec 24
  ck : BitVec 16
deriving DecidableEq, Repr

/-- A RawPacket: "an ordered sequence of exactly 10 byte values", byte 0 first (10_state.md R12). -/
structure RawPacket where
  b0 : Byte
  b1 : Byte
  b2 : Byte
  b3 : Byte
  b4 : Byte
  b5 : Byte
  b6 : Byte
  b7 : Byte
  b8 : Byte
  b9 : Byte
deriving DecidableEq, Repr

/-- One constructor per row of the opcode table. The request operands are the 8-bit fields `a` and `b` of R45, in that
order. A packet row carries every field of R51 but the tag, which the row fixes. -/
inductive Instr where
  | pclr
  | pstb (i d : Byte)
  | pldb (i : Byte)
  | cinit
  | cbyte (d : Byte)
  | crd
  | pcrc
  | ptag
  | pdec
  | rev8 (d : Byte)
  | cmb12 (a b : Byte)
  | cmb12h (a b : Byte)
  | cmb16 (a b : Byte)
  | msk7 (a : Byte)
  | rdr (r : Byte)
  | wrc (r v : Byte)
  | eclr
  | pktGeneric0 (p : PacketFields)
  | pktGeneric1 (p : PacketFields)
  | pktGeneric2 (p : PacketFields)
  | pktGeneric3 (p : PacketFields)
  | pktGeneric4 (p : PacketFields)
  | pktGeneric5 (p : PacketFields)
  | pktGeneric6 (p : PacketFields)
  | pktGeneric7 (p : PacketFields)
  | pktTemp (p : PacketFields)
  | pktGeneric9 (p : PacketFields)
  | pktHum (p : PacketFields)
  | pktGenericB (p : PacketFields)
  | pktGenericC (p : PacketFields)
  | pktGenericD (p : PacketFields)
  | pktRain (p : PacketFields)
  | pktGenericF (p : PacketFields)
deriving DecidableEq, Repr

/-- The two spaces of the opcode table: a 24-bit request word (R45) or an 80-bit packet word (R51). -/
inductive Encoded where
  | request (w : RequestWord)
  | packet (P : PacketWord)
deriving DecidableEq, Repr

/-- The three request formats (R46), and the packet format of the table. -/
inductive Format where
  | Z
  | A
  | AB
  | PKT
deriving DecidableEq, Repr

/-- The format of each row (R46, R47). -/
def Instr.format : Instr → Format
  | .pclr | .cinit | .crd | .pcrc | .ptag | .pdec | .eclr => .Z
  | .pldb _ | .cbyte _ | .rev8 _ | .msk7 _ | .rdr _ => .A
  | .pstb _ _ | .cmb12 _ _ | .cmb12h _ _ | .cmb16 _ _ | .wrc _ _ => .AB
  | .pktGeneric0 _ | .pktGeneric1 _ | .pktGeneric2 _ | .pktGeneric3 _ | .pktGeneric4 _ | .pktGeneric5 _
  | .pktGeneric6 _ | .pktGeneric7 _ | .pktTemp _ | .pktGeneric9 _ | .pktHum _ | .pktGenericB _ | .pktGenericC _
  | .pktGenericD _ | .pktRain _ | .pktGenericF _ => .PKT

end Sys2Proof
end

