-- ==== Sys2Proof/WellFormed.lean ====
section
/-! DEFINITION. Two checks the spec gives. `Instr.wellFormed`: every operand has a value 30_encoding.md R48 calls legal.
`RequestWord.wellFormed`: the word is one of the legal forms of R54. Neither is a precondition of running: an
instruction with an illegal operand value decodes and runs, and answers `E_INDEX` or `E_CFG`; a word that is no legal
form answers `E_ILLEGAL`. -/

namespace Sys2Proof

/-- R48: a byte index is legal from 0 to 9. -/
def legalByteIndex (i : Byte) : Bool := decide (i.toNat < config.pktLen)

/-- R48: a register number of `RDR` is legal from 0 to 9. -/
def legalReadRegister (r : Byte) : Bool := decide (r.toNat ≤ 9)

/-- R48: for `WRC` only register 1 is legal. -/
def legalWriteRegister (r : Byte) : Bool := r == 1

/-- R48: the value of `WRC 1, v` is legal from 1 to 10. -/
def legalRange (v : Byte) : Bool := decide (config.lenMin ≤ v.toNat) && decide (v.toNat ≤ config.lenMax)

/-- R48: every operand has a legal value. A data byte is legal at every value, and so is every field of a packet
(R55, R61). -/
def Instr.wellFormed : Instr → Bool
  | .pstb i _ => legalByteIndex i
  | .pldb i => legalByteIndex i
  | .rdr r => legalReadRegister r
  | .wrc r v => legalWriteRegister r && legalRange v
  | .pclr | .cinit | .cbyte _ | .crd | .pcrc | .ptag | .pdec | .rev8 _ | .cmb12 _ _ | .cmb12h _ _ | .cmb16 _ _
  | .msk7 _ | .eclr => true
  | .pktGeneric0 _ | .pktGeneric1 _ | .pktGeneric2 _ | .pktGeneric3 _ | .pktGeneric4 _ | .pktGeneric5 _
  | .pktGeneric6 _ | .pktGeneric7 _ | .pktTemp _ | .pktGeneric9 _ | .pktHum _ | .pktGenericB _ | .pktGenericC _
  | .pktGenericD _ | .pktRain _ | .pktGenericF _ => true

/-- The format each operation code has (R47); none for an `op` that is not one of the seventeen. -/
def opFormat (op : Byte) : Option Format :=
  if op ∈ [0x10#8, 0x20#8, 0x22#8, 0x23#8, 0x30#8, 0x31#8, 0x52#8] then some .Z
  else if op ∈ [0x12#8, 0x21#8, 0x40#8, 0x44#8, 0x50#8] then some .A
  else if op ∈ [0x11#8, 0x41#8, 0x42#8, 0x43#8, 0x51#8] then some .AB
  else none

/-- R54: a request word is legal unless (a) its `op` is none of the seventeen, (b) its format is `Z` and `a` or `b` is
not zero, or (c) its format is `A` and `b` is not zero. -/
def RequestWord.wellFormed (w : RequestWord) : Bool :=
  match opFormat (w.extractLsb' 16 8) with
  | none => false
  | some .Z => w.extractLsb' 8 8 == 0 && w.extractLsb' 0 8 == 0
  | some .A => w.extractLsb' 0 8 == 0
  | some .AB => true
  | some .PKT => false

end Sys2Proof
end

