-- ==== Sys2Proof/Decode.lean ====
section
/-! DEFINITION. The decoder of request words (30_encoding.md R60) and of packet words (R61), total on every word; after
it the encoder, and `decodeTableWord` for words numbered as spec/opcode_table.json numbers them. -/

namespace Sys2Proof

/-- Why a request word is illegal (R54): (a) `undefinedOp`, (b) and (c) `unusedFieldNotZero`. -/
inductive DecodeError where
  | undefinedOp (op : Byte)
  | unusedFieldNotZero (op a b : Byte)
deriving DecidableEq, Repr

/-- R45: `op = w[23:16]`. -/
def requestOp (w : RequestWord) : Byte := w.extractLsb' 16 8

/-- R45: `a = w[15:8]`. -/
def requestA (w : RequestWord) : Byte := w.extractLsb' 8 8

/-- R45: `b = w[7:0]`. -/
def requestB (w : RequestWord) : Byte := w.extractLsb' 0 8

/-- Format `Z` (R46): both operand fields must be zero. -/
def decodeZ (op a b : Byte) (x : Instr) : Except DecodeError Instr :=
  if a = 0 ∧ b = 0 then .ok x else .error (.unusedFieldNotZero op a b)

/-- Format `A` (R46): the field `b` must be zero. -/
def decodeA (op a b : Byte) (x : Instr) : Except DecodeError Instr :=
  if b = 0 then .ok x else .error (.unusedFieldNotZero op a b)

/-- The case table of R60, on the three fields of a request. -/
def decodeFields (op a b : Byte) : Except DecodeError Instr :=
  match op with
  | 0x10#8 => decodeZ op a b .pclr
  | 0x11#8 => .ok (.pstb a b)
  | 0x12#8 => decodeA op a b (.pldb a)
  | 0x20#8 => decodeZ op a b .cinit
  | 0x21#8 => decodeA op a b (.cbyte a)
  | 0x22#8 => decodeZ op a b .crd
  | 0x23#8 => decodeZ op a b .pcrc
  | 0x30#8 => decodeZ op a b .ptag
  | 0x31#8 => decodeZ op a b .pdec
  | 0x40#8 => decodeA op a b (.rev8 a)
  | 0x41#8 => .ok (.cmb12 a b)
  | 0x42#8 => .ok (.cmb12h a b)
  | 0x43#8 => .ok (.cmb16 a b)
  | 0x44#8 => decodeA op a b (.msk7 a)
  | 0x50#8 => decodeA op a b (.rdr a)
  | 0x51#8 => .ok (.wrc a b)
  | 0x52#8 => decodeZ op a b .eclr
  | _ => .error (.undefinedOp op)

/-- R60: decoding a request word, total, rejecting by name. -/
def decodeRequest (w : RequestWord) : Except DecodeError Instr :=
  decodeFields (requestOp w) (requestA w) (requestB w)

/-- R51: the type tag `P[79:76]`. -/
def packetTag (P : PacketWord) : BitVec 4 := P.extractLsb' 76 4

/-- R51: the fields of a packet word other than its tag. -/
def packetFields (P : PacketWord) : PacketFields where
  x0 := P.extractLsb' 72 4
  ws := P.extractLsb' 64 8
  wd := P.extractLsb' 56 8
  b3 := P.extractLsb' 48 8
  b4 := P.extractLsb' 40 8
  x5 := P.extractLsb' 16 24
  ck := P.extractLsb' 0 16

/-- R52: the row each tag value selects. None of the sixteen is illegal. -/
def packetRow (tag : BitVec 4) (p : PacketFields) : Instr :=
  match tag with
  | 0x0#4 => .pktGeneric0 p
  | 0x1#4 => .pktGeneric1 p
  | 0x2#4 => .pktGeneric2 p
  | 0x3#4 => .pktGeneric3 p
  | 0x4#4 => .pktGeneric4 p
  | 0x5#4 => .pktGeneric5 p
  | 0x6#4 => .pktGeneric6 p
  | 0x7#4 => .pktGeneric7 p
  | 0x8#4 => .pktTemp p
  | 0x9#4 => .pktGeneric9 p
  | 0xA#4 => .pktHum p
  | 0xB#4 => .pktGenericB p
  | 0xC#4 => .pktGenericC p
  | 0xD#4 => .pktGenericD p
  | 0xE#4 => .pktRain p
  | _ => .pktGenericF p

/-- R61: decoding a packet word is total, and no packet is illegal. -/
def decodePacket (P : PacketWord) : Instr := packetRow (packetTag P) (packetFields P)

/-- The decoder over both spaces of the table. -/
def decode : Encoded → Except DecodeError Instr
  | .request w => decodeRequest w
  | .packet P => .ok (decodePacket P)

/-- R45: the request word `{op, a, b}`. -/
def requestWord (op a b : Byte) : RequestWord := op ++ a ++ b

/-- R51: the packet word with the given tag and fields. -/
def packetWord (tag : BitVec 4) (p : PacketFields) : PacketWord :=
  tag ++ p.x0 ++ p.ws ++ p.wd ++ p.b3 ++ p.b4 ++ p.x5 ++ p.ck

/-- `encode` of R60, zero in every unused field, and the packet word of R51 for a packet row. -/
def encode : Instr → Encoded
  | .pclr => .request (requestWord 0x10 0 0)
  | .pstb i d => .request (requestWord 0x11 i d)
  | .pldb i => .request (requestWord 0x12 i 0)
  | .cinit => .request (requestWord 0x20 0 0)
  | .cbyte d => .request (requestWord 0x21 d 0)
  | .crd => .request (requestWord 0x22 0 0)
  | .pcrc => .request (requestWord 0x23 0 0)
  | .ptag => .request (requestWord 0x30 0 0)
  | .pdec => .request (requestWord 0x31 0 0)
  | .rev8 d => .request (requestWord 0x40 d 0)
  | .cmb12 a b => .request (requestWord 0x41 a b)
  | .cmb12h a b => .request (requestWord 0x42 a b)
  | .cmb16 a b => .request (requestWord 0x43 a b)
  | .msk7 a => .request (requestWord 0x44 a 0)
  | .rdr r => .request (requestWord 0x50 r 0)
  | .wrc r v => .request (requestWord 0x51 r v)
  | .eclr => .request (requestWord 0x52 0 0)
  | .pktGeneric0 p => .packet (packetWord 0x0 p)
  | .pktGeneric1 p => .packet (packetWord 0x1 p)
  | .pktGeneric2 p => .packet (packetWord 0x2 p)
  | .pktGeneric3 p => .packet (packetWord 0x3 p)
  | .pktGeneric4 p => .packet (packetWord 0x4 p)
  | .pktGeneric5 p => .packet (packetWord 0x5 p)
  | .pktGeneric6 p => .packet (packetWord 0x6 p)
  | .pktGeneric7 p => .packet (packetWord 0x7 p)
  | .pktTemp p => .packet (packetWord 0x8 p)
  | .pktGeneric9 p => .packet (packetWord 0x9 p)
  | .pktHum p => .packet (packetWord 0xA p)
  | .pktGenericB p => .packet (packetWord 0xB p)
  | .pktGenericC p => .packet (packetWord 0xC p)
  | .pktGenericD p => .packet (packetWord 0xD p)
  | .pktRain p => .packet (packetWord 0xE p)
  | .pktGenericF p => .packet (packetWord 0xF p)

/-- The request word of an operation; none for a packet row, which is no request. -/
def encodeRequest (i : Instr) : Option RequestWord :=
  match encode i with
  | .request w => some w
  | .packet _ => none

/-- The ten bytes of the packet with the given tag and fields, byte `i` at `P[79-8i : 72-8i]` (R51). -/
def PacketFields.raw (tag : BitVec 4) (p : PacketFields) : RawPacket where
  b0 := tag ++ p.x0
  b1 := p.ws
  b2 := p.wd
  b3 := p.b3
  b4 := p.b4
  b5 := p.x5.extractLsb' 16 8
  b6 := p.x5.extractLsb' 8 8
  b7 := p.x5.extractLsb' 0 8
  b8 := p.ck.extractLsb' 8 8
  b9 := p.ck.extractLsb' 0 8

/-- The ten bytes of a packet word (R51). -/
def RawPacket.ofWord (P : PacketWord) : RawPacket := (packetFields P).raw (packetTag P)

/-- `P = {b0, …, b9}` (R51). -/
def RawPacket.word (q : RawPacket) : PacketWord :=
  q.b0 ++ q.b1 ++ q.b2 ++ q.b3 ++ q.b4 ++ q.b5 ++ q.b6 ++ q.b7 ++ q.b8 ++ q.b9

/-- The instruction the decoder reads from a table word: 24 bits are one request word, 80 bits one packet word, bit 0
the least significant bit of that one word (log entry 7). A word that does not fit its width is no word of the table. -/
def decodeTableWord (nbits w : Nat) : Option Instr :=
  if nbits = 24 ∧ w < 2 ^ 24 then (decodeRequest (BitVec.ofNat 24 w)).toOption
  else if nbits = 80 ∧ w < 2 ^ 80 then some (decodePacket (BitVec.ofNat 80 w))
  else none

end Sys2Proof
end

