-- ==== Sys2Proof/Machine/State.lean ====
section
/-! DEFINITION. The state of the block (10_state.md R10) as plain data, the host's queue and the responses beside it,
and the state after `RESET` (R27). -/

namespace Sys2Proof.Machine

/-- The four layouts of bytes 3 and 4 (10_state.md R21, 42_decode.md R87). -/
inductive Kind where
  | generic
  | temp
  | hum
  | rain
deriving DecidableEq, Repr

/-- The seven outcome codes of 30_encoding.md R50, and no other: codes 7 to 15 are never produced. -/
inductive Code where
  | ok
  | badcrc
  | eIllegal
  | eIndex
  | eUninit
  | eNovalue
  | eCfg
deriving DecidableEq, Repr

/-- A response (30_encoding.md R49): the outcome code and the 16-bit result value. -/
structure Response where
  code : Code
  val : Word16
deriving DecidableEq, Repr

/-- The errors of 60_exceptions.md R137 with the `info` that `raise E(info)` names. The `info` is for the reader: no
operation stores or returns it (R138). -/
inductive Err where
  /-- `E_ILLEGAL(w)`, R140 -/
  | illegal (w : RequestWord)
  /-- `E_INDEX(i)`, R141 -/
  | index (i : Byte)
  /-- `E_UNINIT(i)`, R142 -/
  | uninit (i : Byte)
  /-- `E_NOVALUE(r)`, R143 -/
  | noValue (r : Byte)
  /-- `E_CFG(v)`, R144 -/
  | cfg (v : Byte)
deriving DecidableEq, Repr

/-- The packet buffer: the written cells as (index, byte) pairs, indices strictly rising (log entry 6). -/
abbrev Memory := List Host.Cell

/-- `STATUS` (10_state.md R16). Its bits 15:8 have no storage. -/
structure Status where
  done : Bool
  ok : Bool
  bad : Bool
  err : Bool
  ecode : BitVec 4
deriving DecidableEq, Repr

/-- The six result registers (10_state.md R18 to R24); `none` is the spec's `NONE`. -/
structure Results where
  rTag : Option (BitVec 4)
  rCrc : Option Word16
  rKind : Option (BitVec 2)
  rVal : Option Word16
  rWspd : Option Byte
  rWdir : Option Byte
deriving DecidableEq, Repr

/-- All six result registers at `NONE`. -/
def Results.none : Results where
  rTag := .none
  rCrc := .none
  rKind := .none
  rVal := .none
  rWspd := .none
  rWdir := .none

/-- What the host can do to the block: issue a request word (R9, R45) or raise `RESET` (70_reset_and_hazards.md R155). -/
inductive HostEvent where
  | request (w : RequestWord)
  | reset
deriving DecidableEq, Repr

/-- Everything 10_state.md R10 lists, and the two fields that stand for the interface of R9: `pending`, what the host
has issued and the block has not taken, first to be taken first; `responses`, what the block has returned, oldest
first. The valid bits `PV` are the view `Memory.pv` of `pkt` (R10, R26). DESIGN CHOICE safe: log entries 2, 3, 6. -/
structure State where
  /-- `PKT`, R12 -/
  pkt : Memory
  /-- `ACC`, R14 -/
  acc : Word16
  /-- `CFG.LEN`, R15 -/
  len : BitVec 4
  /-- `STATUS`, R16 -/
  status : Status
  /-- `R_TAG`, `R_CRC`, `R_KIND`, `R_VAL`, `R_WSPD`, `R_WDIR`, R18 -/
  results : Results
  /-- the host's events not yet taken: the MODEL's own field, no state of the block -/
  pending : List HostEvent
  /-- the responses returned so far: the MODEL's own field, no state of the block -/
  responses : List Response
deriving DecidableEq, Repr

/-- Why the machine stops with a fault: never. Every request in every state has exactly one response and one next state
(00_scope.md R9, 60_exceptions.md R135), so there is no constructor. Log entry 8. -/
inductive Fault where
deriving DecidableEq, Repr

/-- Why an instruction has no meaning. -/
inductive Refusal where
  /-- Raised by an arm of `exec` whose instruction has no meaning yet, and by nothing else; safe. No arm raises it. -/
  | notModelled (mnemonic : String)
deriving DecidableEq, Repr

/-- The machine right after `RESET` with nothing issued (10_state.md R27). `pending` and `responses` are empty:
DESIGN CHOICE, log entries 2 and 3. -/
def State.reset : State where
  pkt := []
  acc := config.init
  len := BitVec.ofNat 4 config.lenDefault
  status :=
    { done := false
      ok := false
      bad := false
      err := false
      ecode := 0 }
  results := Results.none
  pending := []
  responses := []

end Sys2Proof.Machine
end

