-- ==== Sys2Proof/Machine/Functions.lean ====
section
/-! DEFINITION. The function layer: the CRC (41_crc.md R70 to R72), tag, dispatch, validation and field combines
(42_decode.md R85 to R93, R98), and bit-order reversal (43_utility.md R100, R101). Pure functions; no state. -/

namespace Sys2Proof.Machine

/-- One round (R70): the bit tested is bit 15 before the shift, the polynomial goes into the shifted value. -/
def crc16Bit (acc : Word16) : Word16 :=
  if acc.getLsbD 15 then (acc <<< 1) ^^^ config.poly else acc <<< 1

/-- `n` rounds. -/
def crc16Rounds : Nat → Word16 → Word16
  | 0, x => x
  | n + 1, x => crc16Rounds n (crc16Bit x)

/-- One byte (R71): into the high byte, then eight rounds. -/
def crc16Byte (acc : Word16) (d : Byte) : Word16 :=
  crc16Rounds 8 (acc ^^^ (d.setWidth 16 <<< 8))

/-- A sequence of bytes (R72), first byte first, from `INIT`, with no final XOR. -/
def crc16 (bytes : List Byte) : Word16 := bytes.foldl crc16Byte config.init

/-- `tag_of(b0) = b0[7:4]` (R85). -/
def tagOf (b0 : Byte) : BitVec 4 := b0.extractLsb' 4 4

/-- `kind_of(tag)` (R87). -/
def kindOf (tag : BitVec 4) : Kind :=
  if tag = config.tagTemp then .temp
  else if tag = config.tagHum then .hum
  else if tag = config.tagRain then .rain
  else .generic

/-- The number of a layout in `R_KIND` (10_state.md R21). -/
def Kind.bits : Kind → BitVec 2
  | .generic => 0
  | .temp => 1
  | .hum => 2
  | .rain => 3

/-- `cmb16(b3, b4) = (b3 << 8) | b4` (R89). -/
def cmb16 (b3 b4 : Byte) : Word16 := (b3.setWidth 16 <<< 8) ||| b4.setWidth 16

/-- `cmb12h(b3, b4) = b3 | ((b4 >> 4) << 8)` (R90): the lower-indexed byte is the less significant. -/
def cmb12h (b3 b4 : Byte) : BitVec 12 := b3.setWidth 12 ||| ((b4 >>> 4).setWidth 12 <<< 8)

/-- `msk7(b3) = b3 & 0x7F` (R91). -/
def msk7 (b3 : Byte) : BitVec 7 := (b3 &&& config.rainMask).setWidth 7

/-- `cmb12(b3, b4) = (b3 << 4) | (b4 >> 4)` (R93). -/
def cmb12 (b3 b4 : Byte) : BitVec 12 := (b3.setWidth 12 <<< 4) ||| (b4 >>> 4).setWidth 12

/-- `field_value(kind, b3, b4)`, zero-extended to the 16 bits of `R_VAL` (R88, 10_state.md R22). -/
def fieldValue : Kind → Byte → Byte → Word16
  | .temp, b3, b4 => cmb16 b3 b4
  | .hum, b3, b4 => (cmb12h b3 b4).setWidth 16
  | .rain, b3, _ => (msk7 b3).setWidth 16
  | .generic, b3, b4 => (cmb12 b3 b4).setWidth 16

/-- `wind_speed_raw(pkt) = b1` (R92). -/
def windSpeedRaw (q : RawPacket) : Byte := q.b1

/-- `wind_dir_raw(pkt) = b2` (R92). -/
def windDirRaw (q : RawPacket) : Byte := q.b2

/-- The bytes of a packet in increasing index order (20_memory.md R32). -/
def packetBytes (q : RawPacket) : List Byte :=
  [q.b0, q.b1, q.b2, q.b3, q.b4, q.b5, q.b6, q.b7, q.b8, q.b9]

/-- `checksum(pkt, n) = crc16([b0, ..., b(n-1)])` (R86). -/
def checksum (q : RawPacket) (n : Nat) : Word16 := crc16 ((packetBytes q).take n)

/-- `accepted(pkt, n)` (R86): the checksum is zero. -/
def accepted (q : RawPacket) (n : Nat) : Bool := checksum q n == 0

/-- The two results of the decoder (R98). The `crc` of an accepted packet is 0x0000. -/
inductive Decoded where
  | rejected (tag : BitVec 4) (crc : Word16)
  | accepted (tag : BitVec 4) (kind : Kind) (val : Word16) (wspd wdir : Byte)
deriving DecidableEq, Repr

/-- Validation, and the decode of an accepted packet under a given tag and layout (R86, R98). -/
def decodeAs (tag : BitVec 4) (k : Kind) (q : RawPacket) (n : Nat) : Decoded :=
  if accepted q n then .accepted tag k (fieldValue k q.b3 q.b4) (windSpeedRaw q) (windDirRaw q)
  else .rejected tag (checksum q n)

/-- `decode_packet(pkt, n)` (R98): the tag is the packet's, the layout the tag's. -/
def decodeRawPacket (q : RawPacket) (n : Nat) : Decoded :=
  decodeAs (tagOf q.b0) (kindOf (tagOf q.b0)) q n

/-- `reverse_bits(d)` (R100): bit `i` of the result is bit `7 - i` of `d`. -/
def reverseBits (d : Byte) : Byte :=
  BitVec.ofBool (d.getLsbD 0) ++ BitVec.ofBool (d.getLsbD 1) ++ BitVec.ofBool (d.getLsbD 2)
    ++ BitVec.ofBool (d.getLsbD 3) ++ BitVec.ofBool (d.getLsbD 4) ++ BitVec.ofBool (d.getLsbD 5)
    ++ BitVec.ofBool (d.getLsbD 6) ++ BitVec.ofBool (d.getLsbD 7)

/-- Stage 1 of R101: swap the two nibbles. -/
def swapNibbles (d : Byte) : Byte := ((d &&& 0xF0) >>> 4) ||| ((d &&& 0x0F) <<< 4)

/-- Stage 2 of R101: swap the two bit-pairs inside each nibble. -/
def swapPairs (d : Byte) : Byte := ((d &&& 0xCC) >>> 2) ||| ((d &&& 0x33) <<< 2)

/-- Stage 3 of R101: swap the two bits inside each pair. -/
def swapBits (d : Byte) : Byte := ((d &&& 0xAA) >>> 1) ||| ((d &&& 0x55) <<< 1)

/-- The three-stage form of R101, which R100 defines the meaning of. -/
def reverseBitsStaged (d : Byte) : Byte := swapBits (swapPairs (swapNibbles d))

/-- The table entry `T[k] = crc16_byte(0x0000, k)` (R80). -/
def crcTable (k : Byte) : Word16 := crc16Byte 0 k

/-- The table-driven form of `crc16_byte` (R80). -/
def crc16ByteTable (acc : Word16) (d : Byte) : Word16 :=
  (acc <<< 8) ^^^ crcTable (acc.extractLsb' 8 8 ^^^ d)

/-- One round of the document's form of R73 on an accumulator that may grow: the bit tested is bit 15, nothing is cut. -/
def crcWideBit (x : Nat) : Nat :=
  if x.testBit 15 then (2 * x) ^^^ config.poly.toNat else 2 * x

/-- `n` rounds of the document's form. -/
def crcWideRounds : Nat → Nat → Nat
  | 0, x => x
  | n + 1, x => crcWideRounds n (crcWideBit x)

/-- One byte of the document's form (R73): masked to 16 bits after the byte, not after each round. -/
def crcWideByte (acc : Nat) (d : Byte) : Nat := crcWideRounds 8 (acc ^^^ (d.toNat * 256)) % 65536

end Sys2Proof.Machine
end

