-- ==== Sys2Proof/Machine/Flags.lean ====
section
/-! DEFINITION. Every computation over `STATUS` and the outcome codes the spec gives (10_state.md R16, R25;
30_encoding.md R49, R50; 60_exceptions.md R138). -/

namespace Sys2Proof.Machine

/-- The number of an outcome code (30_encoding.md R50). -/
def Code.bits : Code → BitVec 4
  | .ok => 0
  | .badcrc => 1
  | .eIllegal => 2
  | .eIndex => 3
  | .eUninit => 4
  | .eNovalue => 5
  | .eCfg => 6

/-- The codes R135 calls errors; `OK` and `BADCRC` are normal outcomes (R136). -/
def Code.isError : Code → Bool
  | .ok => false
  | .badcrc => false
  | .eIllegal => true
  | .eIndex => true
  | .eUninit => true
  | .eNovalue => true
  | .eCfg => true

/-- The 20-bit response word `{code, val}` (30_encoding.md R49). -/
def Response.word (r : Response) : BitVec 20 := r.code.bits ++ r.val

/-- The code of an error (60_exceptions.md R137). -/
def Err.code : Err → Code
  | .illegal _ => .eIllegal
  | .index _ => .eIndex
  | .uninit _ => .eUninit
  | .noValue _ => .eNovalue
  | .cfg _ => .eCfg

/-- The 16-bit read value of `STATUS`: `{0x00, ECODE, ERR, BAD, OK, DONE}` (10_state.md R25). -/
def Status.word (st : Status) : Word16 :=
  0x00#8 ++ st.ecode ++ BitVec.ofBool st.err ++ BitVec.ofBool st.bad ++ BitVec.ofBool st.ok ++ BitVec.ofBool st.done

/-- `DONE`, `OK`, `BAD` cleared, as `PCLR`, a successful `PSTB` and a successful `WRC 1, v` do (R16). -/
def Status.clearDone (st : Status) : Status := { st with done := false, ok := false, bad := false }

/-- The flags an accepting `PDEC` leaves (42_decode.md R95). -/
def Status.accept (st : Status) : Status := { st with done := true, ok := true, bad := false }

/-- The flags a rejecting `PDEC` leaves (42_decode.md R95). -/
def Status.reject (st : Status) : Status := { st with done := true, ok := false, bad := true }

/-- What raising an error does to `STATUS`: the first error's code wins, `ERR` is set (60_exceptions.md R138). -/
def Status.latch (st : Status) (c : Code) : Status :=
  { st with err := true, ecode := if st.err then st.ecode else c.bits }

/-- `ECLR`: `ERR` and `ECODE` cleared (44_system.md R112). -/
def Status.clearError (st : Status) : Status := { st with err := false, ecode := 0 }

end Sys2Proof.Machine
end

