-- ==== Sys2Proof/Machine/Operands.lean ====
section
/-! DEFINITION. The operand forms of the requests (30_encoding.md R48): every operand is one 8-bit field taken as an
unsigned integer, with the range check the spec gives it. There is one addressing mode, the absolute index
(40_packet_buffer.md R68). -/

namespace Sys2Proof.Machine

/-- A byte index (`PSTB`, `PLDB`): 0 to 9, else `E_INDEX` (R48, R141). The effective address is the operand (R68). -/
def byteIndex (i : Byte) : Except Err Nat :=
  if i.toNat < config.pktLen then .ok i.toNat else .error (.index i)

/-- The register number of `RDR`: 0 to 9, else `E_INDEX` (R48, R141). -/
def registerNumber (r : Byte) : Except Err Nat :=
  if r.toNat ≤ 9 then .ok r.toNat else .error (.index r)

/-- The register number of `WRC`: only 1, `CFG`, is writable, else `E_INDEX` (R48, R111). -/
def writableRegister (r : Byte) : Except Err Unit :=
  if r = 1 then .ok () else .error (.index r)

/-- The value of `WRC 1, v`: 1 to 10, else `E_CFG` (R48, R144). -/
def checksumRange (v : Byte) : Except Err (BitVec 4) :=
  if v.toNat < config.lenMin ∨ config.lenMax < v.toNat then .error (.cfg v) else .ok (v.setWidth 4)

end Sys2Proof.Machine
end

