-- ==== Sys2Proof/Machine/Ops.lean ====
section
/-! DEFINITION. The named operations: the packet buffer (20_memory.md R33, R34), the numbered register view
(10_state.md R25), responding and raising an error (60_exceptions.md R138), the `RESET` event
(70_reset_and_hazards.md R155), and taking the host's next event (00_scope.md R9). -/

namespace Sys2Proof.Machine

/-- What an index not listed in the packet buffer reads as: `NONE`, no value (10_state.md R13). -/
def Memory.unlisted : Option Byte := none

/-- The content of cell `a`: the byte written there, or `NONE`. -/
def Memory.read : Memory → Nat → Option Byte
  | [], _ => Memory.unlisted
  | (k, v) :: m, a => if a = k then some v else Memory.read m a

/-- `PV[a]` (10_state.md R13): the cell holds a value. -/
def Memory.valid (m : Memory) (a : Nat) : Bool := (m.read a).isSome

/-- Cell `a` given the byte `v`, the indices kept strictly rising. -/
def Memory.write : Memory → Nat → Byte → Memory
  | [], a, v => [(a, v)]
  | (k, w) :: m, a, v =>
    if a = k then (a, v) :: m
    else if a < k then (a, v) :: (k, w) :: m
    else (k, w) :: Memory.write m a v

/-- Every cell at `NONE`. -/
def Memory.empty : Memory := []

/-- Indices strictly rising from `lo`, all of them indices of the packet (0 to 9). -/
def Memory.risingFrom : Nat → Memory → Bool
  | _, [] => true
  | lo, (k, _) :: m => decide (lo ≤ k) && decide (k < config.pktLen) && Memory.risingFrom (k + 1) m

/-- The canonical form of the packet buffer: indices strictly rising, each from 0 to 9. A listed cell holds a byte, and
an unlisted one reads as `NONE`, so no entry equals what an unlisted index reads as. -/
def Memory.wf (m : Memory) : Bool := Memory.risingFrom 0 m

/-- The ten cells that hold the bytes of a packet. -/
def Memory.ofPacket (q : RawPacket) : Memory :=
  [(0, q.b0), (1, q.b1), (2, q.b2), (3, q.b3), (4, q.b4), (5, q.b5), (6, q.b6), (7, q.b7), (8, q.b8), (9, q.b9)]

/-- The first `n` valid bits as a number, bit `i` for cell `base + i`. -/
def Memory.pvFrom (m : Memory) : Nat → Nat → Nat
  | _, 0 => 0
  | base, n + 1 => (m.valid base).toNat + 2 * Memory.pvFrom m (base + 1) n

/-- `PV` as ten bits, bit `i` for `PKT[i]` (10_state.md R13, R26). -/
def Memory.pv (m : Memory) : BitVec 10 := BitVec.ofNat 10 (Memory.pvFrom m 0 10)

/-- `MemRead(i, 1)` (20_memory.md R33): the index check, then the valid bit. -/
def State.memRead (s : State) (i : Byte) : Except Err Byte :=
  match byteIndex i with
  | .error e => .error e
  | .ok a =>
    match s.pkt.read a with
    | none => .error (.uninit i)
    | some v => .ok v

/-- Several reads in the order listed; the first that fails is the error raised (R33). -/
def State.memReadAll (s : State) : List Byte → Except Err (List Byte)
  | [] => .ok []
  | i :: is =>
    match s.memRead i with
    | .error e => .error e
    | .ok b =>
      match s.memReadAll is with
      | .error e => .error e
      | .ok bs => .ok (b :: bs)

/-- The byte indices `0` to `n - 1` in increasing order. -/
def indicesBelow (n : Nat) : List Byte := (List.range n).map (BitVec.ofNat 8)

/-- `PKT[0]` to `PKT[n-1]`, read in increasing order (41_crc.md R78). -/
def State.memReadPrefix (s : State) (n : Nat) : Except Err (List Byte) := s.memReadAll (indicesBelow n)

/-- All ten bytes, read in increasing order (42_decode.md R95). -/
def State.memReadPacket (s : State) : Except Err RawPacket := do
  let b0 ← s.memRead 0
  let b1 ← s.memRead 1
  let b2 ← s.memRead 2
  let b3 ← s.memRead 3
  let b4 ← s.memRead 4
  let b5 ← s.memRead 5
  let b6 ← s.memRead 6
  let b7 ← s.memRead 7
  let b8 ← s.memRead 8
  let b9 ← s.memRead 9
  return { b0, b1, b2, b3, b4, b5, b6, b7, b8, b9 }

/-- `MemWrite(i, 1, v)` (20_memory.md R34): the index check, then the byte and its valid bit. -/
def State.memWrite (s : State) (i v : Byte) : Except Err State :=
  match byteIndex i with
  | .error e => .error e
  | .ok a => .ok { s with pkt := s.pkt.write a v }

/-- `DONE`, `OK`, `BAD` cleared and the six result registers at `NONE`: what every operation does that can change what
`PDEC` would compute (10_state.md R18, 70_reset_and_hazards.md R159). -/
def State.invalidate (s : State) : State :=
  { s with status := s.status.clearDone, results := Results.none }

/-- `respond(code, val)` (00_scope.md R8, 30_encoding.md R49): one response returned to the host. -/
def State.respond (s : State) (c : Code) (v : Word16) : State :=
  { s with responses := s.responses ++ [{ code := c, val := v }] }

/-- Taking an error, `raise E(info)` (60_exceptions.md R138, R146): `STATUS.ERR`, the first error's code, the error
response with `val = 0x0000`, and nothing else. There is no return from it (R147): `ECLR` clears the flag. -/
def State.raise (s : State) (e : Err) : State :=
  State.respond { s with status := s.status.latch e.code } e.code 0

/-- The end of an operation that may raise: its own next state, or the error raised on the state it began with, so that
nothing it wrote is kept (60_exceptions.md R138). -/
def State.attempt (s : State) : Except Err State → Host.Outcome State Fault Refusal
  | .ok t => .next t
  | .error e => .next (s.raise e)

/-- The result register's value zero-extended, or `E_NOVALUE` when it is `NONE` (44_system.md R110). -/
def resultValue (r : Byte) {n : Nat} : Option (BitVec n) → Except Err Word16
  | none => .error (.noValue r)
  | some v => .ok (v.setWidth 16)

/-- The read value `REG[r]` of register number `k` (10_state.md R25), `r` the operand that named it. -/
def State.registerValue (s : State) (r : Byte) : Nat → Except Err Word16
  | 0 => .ok s.status.word
  | 1 => .ok (s.len.setWidth 16)
  | 2 => .ok s.acc
  | 3 => .ok (s.pkt.pv.setWidth 16)
  | 4 => resultValue r s.results.rTag
  | 5 => resultValue r s.results.rCrc
  | 6 => resultValue r s.results.rKind
  | 7 => resultValue r s.results.rVal
  | 8 => resultValue r s.results.rWspd
  | 9 => resultValue r s.results.rWdir
  | _ => .error (.index r)

/-- The read of a numbered register (44_system.md R110): the number's range first, then the register. -/
def State.readRegister (s : State) (r : Byte) : Except Err Word16 :=
  match registerNumber r with
  | .error e => .error e
  | .ok k => s.registerValue r k

/-- What a `PDEC` that ran to completion leaves and answers (42_decode.md R95). -/
def State.deliver (s : State) : Decoded → State
  | .rejected tag crc =>
    State.respond
      { s with
        status := s.status.reject
        results := { Results.none with rTag := some tag, rCrc := some crc } }
      .badcrc crc
  | .accepted tag k v wspd wdir =>
    State.respond
      { s with
        status := s.status.accept
        results :=
          { rTag := some tag
            rCrc := some 0
            rKind := some k.bits
            rVal := some v
            rWspd := some wspd
            rWdir := some wdir } }
      .ok v

/-- What a packet row does: validation over `CFG.LEN` bytes of the packet the row carries and, if accepted, the row's
layout (30_encoding.md R51 to R53, 42_decode.md R95). DEDUCED safe: log entry 1. -/
def State.runPacket (s : State) (tag : BitVec 4) (k : Kind) (p : PacketFields) : Host.Outcome State Fault Refusal :=
  .next (s.deliver (decodeAs tag k (p.raw tag) s.len.toNat))

/-- The `RESET` event (70_reset_and_hazards.md R155): every piece of the block's state at its reset value, no response.
What the host has still issued and what it was already answered are not state of the block. -/
def State.takeReset (s : State) : State :=
  { State.reset with pending := s.pending, responses := s.responses }

/-- The host's next event and the state with it taken (00_scope.md R9); none when the host has issued nothing. -/
def State.nextEvent (s : State) : Option (HostEvent × State) :=
  match s.pending with
  | [] => none
  | e :: rest => some (e, { s with pending := rest })

/-- Between requests the block holds its state (60_exceptions.md R154). Log entry 4. -/
def State.idle (s : State) : State := s

/-- A request word that decodes to nothing raises `E_ILLEGAL` (30_encoding.md R54, 60_exceptions.md R140). -/
def State.rejectRequest (s : State) (w : RequestWord) : State := s.raise (.illegal w)

/-- The host issues a request word. The block takes words in issue order (00_scope.md R9), so it comes after everything
issued before it. -/
def State.issue (s : State) (w : RequestWord) : State := { s with pending := s.pending ++ [.request w] }

/-- A request word placed where the next step takes it. This is no act of the host and no issue of R9: only
`State.withFetchWord` places a word so (log entry 5). -/
def State.placeRequest (s : State) (w : RequestWord) : State := { s with pending := .request w :: s.pending }

/-- The packet buffer filled with the ten bytes of a packet word. -/
def State.placePacket (s : State) (P : PacketWord) : State := { s with pkt := Memory.ofPacket (RawPacket.ofWord P) }

/-- The request word of `PDEC` (42_decode.md R95). -/
def pdecWord : RequestWord := 0x310000

/-- The instruction whose table word is `w` placed where the next step takes it: a request word as it is; a packet word in
the packet buffer, its place, and the word of `PDEC`, which runs it, where the next step takes it. Log entries 1 and 5. -/
def State.placeTableWord (s : State) (nbits w : Nat) : State :=
  if nbits = 80 then (s.placePacket (BitVec.ofNat 80 w)).placeRequest pdecWord
  else s.placeRequest (BitVec.ofNat 24 w)

end Sys2Proof.Machine
end

