-- ==== Sys2Proof/Machine/Crc.lean ====
section
/-! DEFINITION. The CRC operations `CINIT`, `CBYTE`, `CRD`, `PCRC` (41_crc.md R75 to R78). -/

namespace Sys2Proof.Machine

/-- `CINIT` (R75). -/
def execCinit (s : State) : Host.Outcome State Fault Refusal :=
  .next (State.respond { s with acc := config.init } .ok 0)

/-- `CBYTE d` (R76): the new accumulator is the value returned. -/
def execCbyte (d : Byte) (s : State) : Host.Outcome State Fault Refusal :=
  .next (State.respond { s with acc := crc16Byte s.acc d } .ok (crc16Byte s.acc d))

/-- `CRD` (R77). -/
def execCrd (s : State) : Host.Outcome State Fault Refusal :=
  .next (s.respond .ok s.acc)

/-- `PCRC` (R78): over the first `CFG.LEN` bytes, from `INIT`, without touching `ACC`. -/
def execPcrc (s : State) : Host.Outcome State Fault Refusal :=
  s.attempt do
    let bs ← s.memReadPrefix s.len.toNat
    return s.respond .ok (crc16 bs)

end Sys2Proof.Machine
end

