-- ==== Sys2Proof/Machine/PacketBuffer.lean ====
section
/-! DEFINITION. The packet buffer operations `PCLR`, `PSTB`, `PLDB` (40_packet_buffer.md R65 to R67). -/

namespace Sys2Proof.Machine

/-- `PCLR` (R65). -/
def execPclr (s : State) : Host.Outcome State Fault Refusal :=
  .next (State.respond { s.invalidate with pkt := Memory.empty } .ok 0)

/-- `PSTB i, d` (R66): nothing is stored and nothing invalidated when the index is illegal. -/
def execPstb (i d : Byte) (s : State) : Host.Outcome State Fault Refusal :=
  s.attempt do
    let t ← s.memWrite i d
    return t.invalidate.respond .ok 0

/-- `PLDB i` (R67): the byte zero-extended. -/
def execPldb (i : Byte) (s : State) : Host.Outcome State Fault Refusal :=
  s.attempt do
    let v ← s.memRead i
    return s.respond .ok (v.setWidth 16)

end Sys2Proof.Machine
end

