-- ==== Sys2Proof/Machine/PacketDecode.lean ====
section
/-! DEFINITION. The decode operations `PTAG`, `PDEC` (42_decode.md R94, R95). -/

namespace Sys2Proof.Machine

/-- `PTAG` (R94): only byte 0 is needed, nothing is validated. -/
def execPtag (s : State) : Host.Outcome State Fault Refusal :=
  s.attempt do
    let v ← s.memRead 0
    return s.respond .ok ((tagOf v).setWidth 16)

/-- `PDEC` (R95): all ten bytes are needed whatever `CFG.LEN` is. -/
def execPdec (s : State) : Host.Outcome State Fault Refusal :=
  s.attempt do
    let q ← s.memReadPacket
    return s.deliver (decodeRawPacket q s.len.toNat)

end Sys2Proof.Machine
end

