-- ==== Sys2Proof/Machine/PacketRows.lean ====
section
/-! DEFINITION. The sixteen packet rows of the opcode table (30_encoding.md R51 to R53): what `PDEC` does with a packet
of that tag (42_decode.md R86 to R93, R95). The row fixes the tag and the layout, the fields are the row's operands.
DEDUCED safe: log entry 1. -/

namespace Sys2Proof.Machine

/-- `PKT.GENERIC.0`: tag 0x0, layout `GENERIC` (R93). -/
def execPktGeneric0 (p : PacketFields) (s : State) : Host.Outcome State Fault Refusal :=
  s.runPacket 0x0 .generic p

/-- `PKT.GENERIC.1`: tag 0x1, layout `GENERIC` (R93). -/
def execPktGeneric1 (p : PacketFields) (s : State) : Host.Outcome State Fault Refusal :=
  s.runPacket 0x1 .generic p

/-- `PKT.GENERIC.2`: tag 0x2, layout `GENERIC` (R93). -/
def execPktGeneric2 (p : PacketFields) (s : State) : Host.Outcome State Fault Refusal :=
  s.runPacket 0x2 .generic p

/-- `PKT.GENERIC.3`: tag 0x3, layout `GENERIC` (R93). -/
def execPktGeneric3 (p : PacketFields) (s : State) : Host.Outcome State Fault Refusal :=
  s.runPacket 0x3 .generic p

/-- `PKT.GENERIC.4`: tag 0x4, layout `GENERIC` (R93). -/
def execPktGeneric4 (p : PacketFields) (s : State) : Host.Outcome State Fault Refusal :=
  s.runPacket 0x4 .generic p

/-- `PKT.GENERIC.5`: tag 0x5, layout `GENERIC` (R93). -/
def execPktGeneric5 (p : PacketFields) (s : State) : Host.Outcome State Fault Refusal :=
  s.runPacket 0x5 .generic p

/-- `PKT.GENERIC.6`: tag 0x6, layout `GENERIC` (R93). -/
def execPktGeneric6 (p : PacketFields) (s : State) : Host.Outcome State Fault Refusal :=
  s.runPacket 0x6 .generic p

/-- `PKT.GENERIC.7`: tag 0x7, layout `GENERIC` (R93). -/
def execPktGeneric7 (p : PacketFields) (s : State) : Host.Outcome State Fault Refusal :=
  s.runPacket 0x7 .generic p

/-- `PKT.TEMP`: tag 0x8, layout `TEMP` (R89). -/
def execPktTemp (p : PacketFields) (s : State) : Host.Outcome State Fault Refusal :=
  s.runPacket 0x8 .temp p

/-- `PKT.GENERIC.9`: tag 0x9, layout `GENERIC` (R93). -/
def execPktGeneric9 (p : PacketFields) (s : State) : Host.Outcome State Fault Refusal :=
  s.runPacket 0x9 .generic p

/-- `PKT.HUM`: tag 0xA, layout `HUM` (R90). -/
def execPktHum (p : PacketFields) (s : State) : Host.Outcome State Fault Refusal :=
  s.runPacket 0xA .hum p

/-- `PKT.GENERIC.B`: tag 0xB, layout `GENERIC` (R93). -/
def execPktGenericB (p : PacketFields) (s : State) : Host.Outcome State Fault Refusal :=
  s.runPacket 0xB .generic p

/-- `PKT.GENERIC.C`: tag 0xC, layout `GENERIC` (R93). -/
def execPktGenericC (p : PacketFields) (s : State) : Host.Outcome State Fault Refusal :=
  s.runPacket 0xC .generic p

/-- `PKT.GENERIC.D`: tag 0xD, layout `GENERIC` (R93). -/
def execPktGenericD (p : PacketFields) (s : State) : Host.Outcome State Fault Refusal :=
  s.runPacket 0xD .generic p

/-- `PKT.RAIN`: tag 0xE, layout `RAIN` (R91). -/
def execPktRain (p : PacketFields) (s : State) : Host.Outcome State Fault Refusal :=
  s.runPacket 0xE .rain p

/-- `PKT.GENERIC.F`: tag 0xF, layout `GENERIC` (R93). -/
def execPktGenericF (p : PacketFields) (s : State) : Host.Outcome State Fault Refusal :=
  s.runPacket 0xF .generic p

end Sys2Proof.Machine
end

