-- ==== Sys2Proof/Machine/System.lean ====
section
/-! DEFINITION. The system operations `RDR`, `WRC`, `ECLR` (44_system.md R110 to R112). -/

namespace Sys2Proof.Machine

/-- `RDR r` (R110): a read has no side effect. -/
def execRdr (r : Byte) (s : State) : Host.Outcome State Fault Refusal :=
  s.attempt do
    let v ← s.readRegister r
    return s.respond .ok v

/-- `WRC r, v` (R111): the register check comes first, then the value check. -/
def execWrc (r v : Byte) (s : State) : Host.Outcome State Fault Refusal :=
  s.attempt do
    writableRegister r
    let n ← checksumRange v
    return State.respond { s.invalidate with len := n } .ok (v.setWidth 16)

/-- `ECLR` (R112). -/
def execEclr (s : State) : Host.Outcome State Fault Refusal :=
  .next (State.respond { s with status := s.status.clearError } .ok 0)

end Sys2Proof.Machine
end

