-- ==== Sys2Proof/Machine/Utility.lean ====
section
/-! DEFINITION. The utility operations `REV8`, `CMB12`, `CMB12H`, `CMB16`, `MSK7` (43_utility.md R102 to R106). They
read and write no state of the block. -/

namespace Sys2Proof.Machine

/-- `REV8 d` (R102). -/
def execRev8 (d : Byte) (s : State) : Host.Outcome State Fault Refusal :=
  .next (s.respond .ok ((reverseBits d).setWidth 16))

/-- `CMB12 a, b` (R103). -/
def execCmb12 (a b : Byte) (s : State) : Host.Outcome State Fault Refusal :=
  .next (s.respond .ok ((cmb12 a b).setWidth 16))

/-- `CMB12H a, b` (R104). -/
def execCmb12h (a b : Byte) (s : State) : Host.Outcome State Fault Refusal :=
  .next (s.respond .ok ((cmb12h a b).setWidth 16))

/-- `CMB16 a, b` (R105). -/
def execCmb16 (a b : Byte) (s : State) : Host.Outcome State Fault Refusal :=
  .next (s.respond .ok (cmb16 a b))

/-- `MSK7 a` (R106). -/
def execMsk7 (a : Byte) (s : State) : Host.Outcome State Fault Refusal :=
  .next (s.respond .ok ((msk7 a).setWidth 16))

end Sys2Proof.Machine
end

