-- ==== Sys2Proof/Machine/Dispatch.lean ====
section
/-! DEFINITION. The meaning of every instruction, one arm for each row of the opcode table. -/

namespace Sys2Proof.Machine

def exec (i : Instr) (s : State) : Host.Outcome State Fault Refusal :=
  match i with
  | .pclr => Sys2Proof.Machine.execPclr s
  | .pstb x d => Sys2Proof.Machine.execPstb x d s
  | .pldb x => Sys2Proof.Machine.execPldb x s
  | .cinit => Sys2Proof.Machine.execCinit s
  | .cbyte d => Sys2Proof.Machine.execCbyte d s
  | .crd => Sys2Proof.Machine.execCrd s
  | .pcrc => Sys2Proof.Machine.execPcrc s
  | .ptag => Sys2Proof.Machine.execPtag s
  | .pdec => Sys2Proof.Machine.execPdec s
  | .rev8 d => Sys2Proof.Machine.execRev8 d s
  | .cmb12 a b => Sys2Proof.Machine.execCmb12 a b s
  | .cmb12h a b => Sys2Proof.Machine.execCmb12h a b s
  | .cmb16 a b => Sys2Proof.Machine.execCmb16 a b s
  | .msk7 a => Sys2Proof.Machine.execMsk7 a s
  | .rdr r => Sys2Proof.Machine.execRdr r s
  | .wrc r v => Sys2Proof.Machine.execWrc r v s
  | .eclr => Sys2Proof.Machine.execEclr s
  | .pktGeneric0 p => Sys2Proof.Machine.execPktGeneric0 p s
  | .pktGeneric1 p => Sys2Proof.Machine.execPktGeneric1 p s
  | .pktGeneric2 p => Sys2Proof.Machine.execPktGeneric2 p s
  | .pktGeneric3 p => Sys2Proof.Machine.execPktGeneric3 p s
  | .pktGeneric4 p => Sys2Proof.Machine.execPktGeneric4 p s
  | .pktGeneric5 p => Sys2Proof.Machine.execPktGeneric5 p s
  | .pktGeneric6 p => Sys2Proof.Machine.execPktGeneric6 p s
  | .pktGeneric7 p => Sys2Proof.Machine.execPktGeneric7 p s
  | .pktTemp p => Sys2Proof.Machine.execPktTemp p s
  | .pktGeneric9 p => Sys2Proof.Machine.execPktGeneric9 p s
  | .pktHum p => Sys2Proof.Machine.execPktHum p s
  | .pktGenericB p => Sys2Proof.Machine.execPktGenericB p s
  | .pktGenericC p => Sys2Proof.Machine.execPktGenericC p s
  | .pktGenericD p => Sys2Proof.Machine.execPktGenericD p s
  | .pktRain p => Sys2Proof.Machine.execPktRain p s
  | .pktGenericF p => Sys2Proof.Machine.execPktGenericF p s

end Sys2Proof.Machine
end

