-- ==== Sys2Proof/Machine/Step.lean ====
section
/-! DEFINITION. One step: the block takes the host's next event (00_scope.md R9). A request word is decoded and run, or
raises `E_ILLEGAL`; `RESET` resets; with nothing issued the block holds its state. -/

namespace Sys2Proof.Machine

/-- One step of the block. -/
def step (s : State) : Host.Outcome State Fault Refusal :=
  match s.nextEvent with
  | none => .next s.idle
  | some (.reset, t) => .next t.takeReset
  | some (.request w, t) =>
    match decodeRequest w with
    | .ok i => exec i t
    | .error _ => .next (t.rejectRequest w)

/-- The state in which the next step runs the instruction whose opcode-table word is `w` (log entry 5). -/
def State.withFetchWord (s : State) (nbits w : Nat) : State := s.placeTableWord nbits w

end Sys2Proof.Machine
end

