-- ==== Sys2Proof/Machine/Assembler.lean ====
section
/-! DEFINITION. The assembler syntax of 30_encoding.md R58 and the pseudo-instructions of R59. They are a notation: they
define no behaviour (92_eei_decisions.md D19). White space and the letter case of hexadecimal digits: log entry 13. -/

namespace Sys2Proof.Machine

/-- A pseudo-instruction (R59). -/
inductive Pseudo where
  | pload (q : RawPacket)
  | setlen (n : Byte)
  | crc16 (ds : List Byte)
  | decode (q : RawPacket)
deriving DecidableEq, Repr

/-- `PLOAD d0 … d9`: `PCLR`, then the ten stores, byte 0 first (R59). -/
def ploadOps (q : RawPacket) : List Instr :=
  [.pclr, .pstb 0 q.b0, .pstb 1 q.b1, .pstb 2 q.b2, .pstb 3 q.b3, .pstb 4 q.b4, .pstb 5 q.b5, .pstb 6 q.b6,
    .pstb 7 q.b7, .pstb 8 q.b8, .pstb 9 q.b9]

/-- The sequence of operations a pseudo-instruction stands for (R59). -/
def Pseudo.expand : Pseudo → List Instr
  | .pload q => ploadOps q
  | .setlen n => [.wrc 1 n]
  | .crc16 ds => .cinit :: ds.map Instr.cbyte ++ [.crd]
  | .decode q => ploadOps q ++ [.pdec]

/-- The request words of a sequence of operations. -/
def requestWords (is : List Instr) : List RequestWord := is.filterMap encodeRequest

/-- The mnemonics of R47 with their format and operation code. -/
def mnemonicTable : List (String × Format × Byte) :=
  [("PCLR", .Z, 0x10), ("PSTB", .AB, 0x11), ("PLDB", .A, 0x12), ("CINIT", .Z, 0x20), ("CBYTE", .A, 0x21),
    ("CRD", .Z, 0x22), ("PCRC", .Z, 0x23), ("PTAG", .Z, 0x30), ("PDEC", .Z, 0x31), ("REV8", .A, 0x40),
    ("CMB12", .AB, 0x41), ("CMB12H", .AB, 0x42), ("CMB16", .AB, 0x43), ("MSK7", .A, 0x44), ("RDR", .A, 0x50),
    ("WRC", .AB, 0x51), ("ECLR", .Z, 0x52)]

/-- The value of a hexadecimal digit, in either case. -/
def hexDigit (c : Char) : Option Nat :=
  if '0' ≤ c ∧ c ≤ '9' then some (c.toNat - 48)
  else if 'a' ≤ c ∧ c ≤ 'f' then some (c.toNat - 87)
  else if 'A' ≤ c ∧ c ≤ 'F' then some (c.toNat - 55)
  else none

/-- The value of a decimal digit. -/
def decDigit (c : Char) : Option Nat :=
  if '0' ≤ c ∧ c ≤ '9' then some (c.toNat - 48) else none

/-- Digits in a base, most significant first, continuing from `acc`; none when a character is no digit. -/
def digitsFrom (digit : Char → Option Nat) (base : Nat) : Nat → List Char → Option Nat
  | acc, [] => some acc
  | acc, c :: cs =>
    match digit c with
    | none => none
    | some d => digitsFrom digit base (base * acc + d) cs

/-- At least one digit in a base. -/
def number (digit : Char → Option Nat) (base : Nat) (cs : List Char) : Option Nat :=
  if cs = [] then none else digitsFrom digit base 0 cs

/-- An operand literal: decimal or `0x` hexadecimal, from 0 to 255 (R58). -/
def operandLiteral (cs : List Char) : Option Byte :=
  let n :=
    match cs with
    | '0' :: 'x' :: hs => number hexDigit 16 hs
    | _ => number decDigit 10 cs
  match n with
  | some v => if v ≤ 255 then some (BitVec.ofNat 8 v) else none
  | none => none

/-- Every token an operand literal. -/
def operandLiterals : List (List Char) → Option (List Byte)
  | [] => some []
  | t :: ts =>
    match operandLiteral t, operandLiterals ts with
    | some v, some vs => some (v :: vs)
    | _, _ => none

/-- Maximal runs of characters other than white space; the last character read stands at the head of `word`. -/
def wordsFrom : List Char → List Char → List (List Char)
  | word, [] => if word = [] then [] else [word.reverse]
  | word, c :: cs =>
    if c.isWhitespace then
      if word = [] then wordsFrom [] cs else word.reverse :: wordsFrom [] cs
    else wordsFrom (c :: word) cs

/-- The words of a line between white space. -/
def spaceWords (cs : List Char) : List (List Char) := wordsFrom [] cs

/-- The fields of a line between commas, an empty one where nothing stands on a side of a comma. -/
def commaFields : List Char → List (List Char)
  | [] => [[]]
  | c :: cs =>
    if c = ',' then [] :: commaFields cs
    else
      match commaFields cs with
      | [] => [[c]]
      | field :: fields => (c :: field) :: fields

/-- Ten bytes as a packet. -/
def rawPacketOfBytes : List Byte → Option RawPacket
  | [b0, b1, b2, b3, b4, b5, b6, b7, b8, b9] => some { b0, b1, b2, b3, b4, b5, b6, b7, b8, b9 }
  | _ => none

/-- `MNEMONIC`, `MNEMONIC a` or `MNEMONIC a, b`, as the operation's format has it (R46, R58). A line with a stray comma
(`PCLR ,`, `PLDB 3,`, `PSTB 3,,4`) is none of the three forms and stands for no operation. DESIGN CHOICE safe: log entry
13. -/
def assembleOperation (mnemonic : List Char) (operands : List Char) : Option Instr :=
  match mnemonicTable.find? (fun row => row.1.toList = mnemonic) with
  | none => none
  | some (_, format, op) =>
    match format, (commaFields operands).map spaceWords with
    | .Z, [[]] => (decodeFields op 0 0).toOption
    | .A, [[t]] => (operandLiteral t).bind fun a => (decodeFields op a 0).toOption
    | .AB, [[t], [u]] =>
      (operandLiteral t).bind fun a => (operandLiteral u).bind fun b => (decodeFields op a b).toOption
    | _, _ => none

/-- A pseudo-instruction, its operands between white space (R59). Two points R59 leaves open, DESIGN CHOICE
(safe for the block, unsafe for a text that means bare hexadecimal bytes): log entry 13. How its operands are written: here as the literals of R58, as program P1 of 95_test_vectors.md writes them
(`DECODE 0x80 …`); the bare hexadecimal bytes of its programs P7 and P8 (`PLOAD A0 00 00 32 …`) are no such literals, so
`A0` is refused and `32` is decimal. Whether `CRC16 d0 … dk` may have no byte: here `CRC16` alone stands for `CINIT` and
`CRD`, the checksum of no bytes (41_crc.md R72). -/
def assemblePseudo (mnemonic : List Char) (operands : List Char) : Option Pseudo :=
  match operandLiterals (spaceWords operands) with
  | none => none
  | some vs =>
    if mnemonic = "PLOAD".toList then (rawPacketOfBytes vs).map .pload
    else if mnemonic = "DECODE".toList then (rawPacketOfBytes vs).map .decode
    else if mnemonic = "CRC16".toList then some (.crc16 vs)
    else if mnemonic = "SETLEN".toList then
      match vs with
      | [n] => some (.setlen n)
      | _ => none
    else none

/-- One assembler line (R58): a semicolon starts a comment, the first word is the mnemonic. The operations it stands
for, none of them for an empty line; `none` for a line that is neither an operation nor a pseudo-instruction. -/
def assembleLine (line : List Char) : Option (List Instr) :=
  let code := (line.takeWhile (· ≠ ';')).dropWhile Char.isWhitespace
  let mnemonic := code.takeWhile (fun c => !c.isWhitespace)
  let operands := (code.dropWhile (fun c => !c.isWhitespace)).dropWhile Char.isWhitespace
  if mnemonic = [] then some []
  else
    match assembleOperation mnemonic operands with
    | some i => some [i]
    | none => (assemblePseudo mnemonic operands).map Pseudo.expand

end Sys2Proof.Machine
end

