-- ==== Sys2Proof/Machine/HostSoftware.lean ====
section
/-! DEFINITION. The host's own software as 45_host_software.md gives it (R115 to R134). 00_scope.md R5 puts it outside
the block: nothing here is state of the block or is called by `step`; the last part drives the block through `step`. -/

namespace Sys2Proof.Machine

/-- The sentinel byte for a token that fails to parse (R119). -/
def sentinel : Byte := 0xFF

/-- A hexadecimal byte value of R118, one or two digits in either case. The line shape writes two (`<hex2>`); a token
of one digit is a hexadecimal byte value all the same. DEDUCED: log entry 11. -/
def hexByte : List Char → Option Byte
  | [c] => (hexDigit c).map (BitVec.ofNat 8)
  | [c, d] =>
    match hexDigit c, hexDigit d with
    | some x, some y => some (BitVec.ofNat 8 (16 * x + y))
    | _, _ => none
  | _ => none

/-- One or more hexadecimal digits. -/
def allHexDigits (cs : List Char) : Bool := (number hexDigit 16 cs).isSome

/-- A token without its leading sign. -/
def withoutSign : List Char → List Char
  | '+' :: cs => cs
  | '-' :: cs => cs
  | cs => cs

/-- A token without a leading `0x` mark. -/
def withoutHexMark : List Char → List Char
  | '0' :: 'x' :: cs => cs
  | '0' :: 'X' :: cs => cs
  | cs => cs

/-- Byte tokens whose reading N10 leaves open: more than two hexadecimal digits, or digits after a sign or a `0x` mark
(91_not_in_source.md N10). -/
def openHexForm (t : List Char) : Bool :=
  allHexDigits (withoutHexMark (withoutSign t)) && (hexByte t).isNone

/-- What a byte token parses to; none when it fails to parse. The open forms: log entry 11. -/
def parseByteToken (t : List Char) : Option Byte :=
  match hexByte t with
  | some b => some b
  | none => if openHexForm t then Config.openHexToken t else none

/-- The packet byte of a token: the sentinel when it fails to parse (R119). -/
def byteOfToken (t : List Char) : Byte := (parseByteToken t).getD sentinel

/-- A plain decimal number, digits with an optional point and digits, as an exact rational. -/
def plainTimestamp (t : List Char) : Option Rat :=
  let whole := t.takeWhile (· ≠ '.')
  match t.dropWhile (· ≠ '.') with
  | [] => (number decDigit 10 whole).map fun n => (n : Rat)
  | _ :: fraction =>
    match number decDigit 10 whole, number decDigit 10 fraction with
    | some n, some f => some ((n : Rat) + (f : Rat) / (10 ^ fraction.length : Nat))
    | _, _ => none

/-- One or more decimal digits. -/
def allDecDigits (cs : List Char) : Bool := (number decDigit 10 cs).isSome

/-- Digits with an optional point among, before or after them: at least one digit, at most one point. -/
def mantissaForm (cs : List Char) : Bool :=
  let whole := cs.takeWhile (· ≠ '.')
  match cs.dropWhile (· ≠ '.') with
  | [] => allDecDigits whole
  | _ :: fraction =>
    (allDecDigits whole && (fraction == [] || allDecDigits fraction)) || (whole == [] && allDecDigits fraction)

/-- No exponent, or the mark `e` in either case and an optional sign and digits. -/
def exponentForm : List Char → Bool
  | [] => true
  | _ :: cs => allDecDigits (withoutSign cs)

/-- Decimal floating-point forms of a timestamp that N10 leaves open ("exponent, sign, `nan`, `inf`"), and a point with
digits on one side only. A token of any other form fails to parse (R120). -/
def openTimestampForm (t : List Char) : Bool :=
  let lower := (withoutSign t).map Char.toLower
  (mantissaForm (lower.takeWhile (· ≠ 'e')) && exponentForm (lower.dropWhile (· ≠ 'e')))
    || lower == "nan".toList || lower == "inf".toList || lower == "infinity".toList

/-- The timestamp token (R118, R122); none when it fails to parse (R120). The open forms: log entry 11. -/
def parseTimestamp (t : List Char) : Option Rat :=
  match plainTimestamp t with
  | some x => some x
  | none => if openTimestampForm t then Config.openTimestamp t else none

/-- A line without its trailing white space (R116). -/
def stripTrailing (cs : List Char) : List Char := (cs.reverse.dropWhile Char.isWhitespace).reverse

/-- Leading white space dropped, if `trims`. -/
def stripLeading (trims : Bool) (cs : List Char) : List Char :=
  if trims then cs.dropWhile Char.isWhitespace else cs

/-- The preprocessing of R116: leading dots and trailing white space stripped, and white space before the dots and after
them as the two flags say. -/
def preprocess (before after : Bool) (line : List Char) : List Char :=
  stripTrailing (stripLeading after ((stripLeading before line).dropWhile (· = '.')))

/-- The text of the `Search` test (R117). N10 leaves the two places of leading white space open, each on its own. DESIGN
CHOICE safe: log entry 12. -/
def searchText (line : List Char) : List Char :=
  preprocess Config.scannerTrimsBeforeDots Config.scannerTrimsAfterDots line

/-- The text split into tokens (R118). R116 says that leading white space is irrelevant to the tokens, so they are those
of the line with it stripped, the dots after it included. DEDUCED unsafe: log entry 12. -/
def tokenText (line : List Char) : List Char := preprocess true true line

/-- What the Frame Scanner makes of a line (R115, R117, R120): a receiver diagnostic, a line that yields nothing, or a
RawPacket with its capture timestamp. -/
inductive Scan where
  | diagnostic
  | skipped
  | frame (q : RawPacket) (timestamp : Rat)
deriving DecidableEq, Repr

/-- The Frame Scanner (R115 to R120). Tokens after the eleventh are ignored (90_conflicts.md C2). -/
def frameScan (line : List Char) : Scan :=
  if "Search".toList.isPrefixOf (searchText line) then .diagnostic
  else
    match spaceWords (tokenText line) with
    | t0 :: t1 :: t2 :: t3 :: t4 :: t5 :: t6 :: t7 :: t8 :: t9 :: ts :: _ =>
      match parseTimestamp ts with
      | none => .skipped
      | some x =>
        .frame
          { b0 := byteOfToken t0
            b1 := byteOfToken t1
            b2 := byteOfToken t2
            b3 := byteOfToken t3
            b4 := byteOfToken t4
            b5 := byteOfToken t5
            b6 := byteOfToken t6
            b7 := byteOfToken t7
            b8 := byteOfToken t8
            b9 := byteOfToken t9 }
          x
    | _ => .skipped

/-- The byte tokens of a line that fail to parse: what the optional notice of R121 is about. The spec does not say
whether the notice also concerns a diagnostic line or a line that yields nothing; this lists the tokens of every line.
DESIGN CHOICE safe: log entry 18. -/
def malformedTokens (line : List Char) : List (List Char) :=
  ((spaceWords (tokenText line)).take 10).filter fun t => (parseByteToken t).isNone

/-- Temperature in °F, exact (R124): `v / 160`. -/
def degF (v : Word16) : Rat := (v.toNat : Rat) / 160

/-- Temperature in °C, exact (R125): `(°F − 32) × 5 / 9`. -/
def degC (v : Word16) : Rat := (degF v - 32) * 5 / 9

/-- Wind speed in m/s, exact (R126): `byte1 / 2.6`. -/
def windSpeed (b : Byte) : Rat := (b.toNat : Rat) / (26 / 10)

/-- Wind direction in degrees, exact (R127): `byte2 × 360 / 255`, 0 to 360 inclusive. -/
def windDirection (b : Byte) : Rat := (b.toNat : Rat) * 360 / 255

/-- The number a host reports for an exact rational (R123, `fp_round`; log entry 10). -/
def reported (x : Rat) : Rat := Config.fpRound x

/-- Rain-counter unwrap (R128): the ticks since the previous observation, and the new previous value. -/
def rainUnwrap (previous : Option (BitVec 7)) (current : BitVec 7) : Nat × Option (BitVec 7) :=
  match previous with
  | none => (0, some current)
  | some p => ((((current.toNat : Int) - (p.toNat : Int)) % 128).toNat, some current)

/-- The consumer's installation offset (R129): `(direction + offset) mod 360`. -/
def offsetDirection (direction offset : Rat) : Rat :=
  (direction + offset) - 360 * (((direction + offset) / 360).floor : Rat)

/-- The host's record of one line (R130, R131, R133). An accepted record carries the wind pair and, for layout `TEMP`
only, the temperature in °C (R125, R132), and `crc = 0`; a rejected one carries the checksum and neither (90_conflicts.md
C1). -/
inductive Report where
  | diagnostic
  | malformedSkipped
  | rejected (q : RawPacket) (tag crc : Word16) (timestamp : Rat)
  | accepted (q : RawPacket) (tag crc kind val : Word16) (speed direction : Rat) (temperature : Option Rat)
      (timestamp : Rat)
deriving DecidableEq, Repr

/-- The block takes its next `n` events. None when a step does not answer, which never happens. -/
def State.take (s : State) : Nat → Option State
  | 0 => some s
  | n + 1 =>
    match step s with
    | .next t => t.take n
    | .fault _ => none
    | .refused _ => none

/-- The host waits until the block has taken everything issued, in issue order (R9). -/
def State.await (s : State) : Option State := s.take s.pending.length

/-- The host issues one request and takes the response to it, which comes after the responses to everything issued before
(R9). None for a packet row, which is no request. -/
def State.serve (s : State) (i : Instr) : Option (Response × State) := do
  let w ← encodeRequest i
  let t ← (s.issue w).await
  let r ← t.responses.getLast?
  return (r, t)

/-- A sequence of requests, each taken after the response to the one before it. -/
def State.serveAll (s : State) : List Instr → Option (List Response × State)
  | [] => some ([], s)
  | i :: is => do
    let (r, t) ← s.serve i
    let (rs, u) ← t.serveAll is
    return (r :: rs, u)

/-- The temperature a record carries: layout `TEMP`, number 1, only (R125, R132). -/
def temperatureOf (kind val : Word16) : Option Rat := if kind = 1 then some (reported (degC val)) else none

/-- The host's procedure for one line (R130), by a host that has taken the responses to whatever it issued before. None
only if the block answered an error, for which R130 has no branch. -/
def hostLine (s : State) (line : List Char) : Option (Report × State) := do
  let s ← s.await
  match frameScan line with
  | .diagnostic => some (.diagnostic, s)
  | .skipped => some (.malformedSkipped, s)
  | .frame q ts => do
    let (_, s0) ← s.serveAll (ploadOps q)
    let (r, s1) ← s0.serve .pdec
    match r.code with
    | .badcrc => do
      let (tag, s2) ← s1.serve (.rdr 4)
      return (.rejected q tag.val r.val ts, s2)
    | .ok => do
      let (kind, s2) ← s1.serve (.rdr 6)
      let (wspd, s3) ← s2.serve (.rdr 8)
      let (wdir, s4) ← s3.serve (.rdr 9)
      let (tag, s5) ← s4.serve (.rdr 4)
      return (.accepted q tag.val 0 kind.val r.val (reported (windSpeed (wspd.val.setWidth 8)))
        (reported (windDirection (wdir.val.setWidth 8))) (temperatureOf kind.val r.val) ts, s5)
    | _ => none

/-- A log replayed line by line, each line on its own, nothing retried (R133, R134). At its end everything issued is
answered. -/
def hostReplay (s : State) : List (List Char) → Option (List Report × State)
  | [] => do
    let t ← s.await
    return ([], t)
  | line :: lines => do
    let (r, t) ← hostLine s line
    let (rs, u) ← hostReplay t lines
    return (r :: rs, u)

end Sys2Proof.Machine
end

