-- ==== Sys2Proof/Safety.lean ====
section
/-! DEFINITION. The terms the claims use: what the packet buffer holds, the invariants of 10_state.md R17, the state an
error leaves (60_exceptions.md R138), what a packet row does, and what a log line comes to. -/

namespace Sys2Proof.Machine

/-- The buffer is loaded with these ten bytes (40_packet_buffer.md R69). -/
structure Memory.Holds (m : Memory) (q : RawPacket) : Prop where
  b0 : m.read 0 = some q.b0
  b1 : m.read 1 = some q.b1
  b2 : m.read 2 = some q.b2
  b3 : m.read 3 = some q.b3
  b4 : m.read 4 = some q.b4
  b5 : m.read 5 = some q.b5
  b6 : m.read 6 = some q.b6
  b7 : m.read 7 = some q.b7
  b8 : m.read 8 = some q.b8
  b9 : m.read 9 = some q.b9

/-- The invariants of R17, one field for each clause, and the canonical form of the packet buffer. -/
structure State.Inv (s : State) : Prop where
  /-- the packet buffer is in canonical form, its indices 0 to 9 -/
  memory : s.pkt.wf = true
  /-- `CFG.LEN` is in 1 to 10 -/
  range : 1 ≤ s.len.toNat ∧ s.len.toNat ≤ 10
  /-- `DONE = 0` implies `OK = 0`, `BAD = 0` and all six result registers `NONE` -/
  notDone : s.status.done = false → s.status.ok = false ∧ s.status.bad = false ∧ s.results = Results.none
  /-- `DONE = 1` implies exactly one of `OK`, `BAD`, a full buffer, and tag and checksum of the bytes in it -/
  done : s.status.done = true →
    (s.status.ok = !s.status.bad) ∧ s.pkt.pv = 0b1111111111#10 ∧
    ∃ q, s.pkt.Holds q ∧ s.results.rTag = some (tagOf q.b0) ∧ s.results.rCrc = some (checksum q s.len.toNat)
  /-- `OK = 1` implies `R_CRC = 0x0000` and the four field registers of the bytes now in the buffer -/
  accepted : s.status.ok = true →
    s.results.rCrc = some 0 ∧
    ∃ q, s.pkt.Holds q ∧ s.results.rKind = some (kindOf (tagOf q.b0)).bits ∧
      s.results.rVal = some (fieldValue (kindOf (tagOf q.b0)) q.b3 q.b4) ∧
      s.results.rWspd = some q.b1 ∧ s.results.rWdir = some q.b2
  /-- `BAD = 1` implies `R_CRC` not 0x0000 and the four field registers `NONE` -/
  rejected : s.status.bad = true →
    (∃ c, s.results.rCrc = some c ∧ c ≠ 0) ∧ s.results.rKind = none ∧ s.results.rVal = none ∧
      s.results.rWspd = none ∧ s.results.rWdir = none
  /-- `ERR = 0` implies `ECODE = 0` -/
  noError : s.status.err = false → s.status.ecode = 0
  /-- `ERR = 1` implies `ECODE` is one of 2 to 6 -/
  error : s.status.err = true → s.status.ecode ∈ [2#4, 3#4, 4#4, 5#4, 6#4]

/-- The state an error leaves and nothing else (R138): `ERR` set, the first error's code kept, one response with
`val = 0x0000`. -/
def State.afterError (s : State) (c : Code) : State :=
  { s with
    status := { s.status with err := true, ecode := if s.status.err = true then s.status.ecode else c.bits }
    responses := s.responses ++ [{ code := c, val := 0 }] }

/-- The state of an operation that only answers. -/
def State.afterAnswer (s : State) (v : Word16) : State :=
  { s with responses := s.responses ++ [{ code := .ok, val := v }] }

/-- The state with no packet results: `DONE`, `OK`, `BAD` 0, the six result registers `NONE` (R159). -/
def State.withoutResults (s : State) : State :=
  { s with
    status := { s.status with done := false, ok := false, bad := false }
    results :=
      { rTag := none
        rCrc := none
        rKind := none
        rVal := none
        rWspd := none
        rWdir := none } }

/-- The state an accepting decode leaves (42_decode.md R95). -/
def State.afterAccept (s : State) (tag : BitVec 4) (kind : BitVec 2) (v : Word16) (wspd wdir : Byte) : State :=
  { s with
    status := { s.status with done := true, ok := true, bad := false }
    results :=
      { rTag := some tag
        rCrc := some 0
        rKind := some kind
        rVal := some v
        rWspd := some wspd
        rWdir := some wdir }
    responses := s.responses ++ [{ code := .ok, val := v }] }

/-- The state a rejecting decode leaves (42_decode.md R95). -/
def State.afterReject (s : State) (tag : BitVec 4) (crc : Word16) : State :=
  { s with
    status := { s.status with done := true, ok := false, bad := true }
    results :=
      { rTag := some tag
        rCrc := some crc
        rKind := none
        rVal := none
        rWspd := none
        rWdir := none }
    responses := s.responses ++ [{ code := .badcrc, val := crc }] }

/-- A packet row validates and decodes the packet it carries: tag, layout number and the number the layout makes of
the fields (30_encoding.md R52, R53). -/
def PacketRowDecodes (row : PacketFields → Instr) (tag : BitVec 4) (kind : BitVec 2) (value : PacketFields → Nat) :
    Prop :=
  ∀ (p : PacketFields) (s : State),
    (checksum (p.raw tag) s.len.toNat = 0 →
      ∃ v : Word16, v.toNat = value p ∧ exec (row p) s = .next (s.afterAccept tag kind v p.ws p.wd)) ∧
    (checksum (p.raw tag) s.len.toNat ≠ 0 →
      exec (row p) s = .next (s.afterReject tag (checksum (p.raw tag) s.len.toNat)))

/-- An operation of format `Z` (30_encoding.md R46): its word, and `E_ILLEGAL` with any bit of `a` or `b` set. -/
def EncodedAsZ (op : Byte) (i : Instr) : Prop :=
  decodeRequest (requestWord op 0 0) = .ok i ∧
  ∀ (a b : Byte) (s : State) (rest : List HostEvent), (a ≠ 0 ∨ b ≠ 0) →
    s.pending = .request (requestWord op a b) :: rest →
      step s = .next (State.afterError { s with pending := rest } .eIllegal)

/-- An operation of format `A` (R46): its words, and `E_ILLEGAL` with any bit of `b` set. -/
def EncodedAsA (op : Byte) (i : Byte → Instr) : Prop :=
  (∀ a : Byte, decodeRequest (requestWord op a 0) = .ok (i a)) ∧
  ∀ (a b : Byte) (s : State) (rest : List HostEvent), b ≠ 0 →
    s.pending = .request (requestWord op a b) :: rest →
      step s = .next (State.afterError { s with pending := rest } .eIllegal)

/-- An operation of format `AB` (R46): its words, none of them illegal. -/
def EncodedAsAB (op : Byte) (i : Byte → Byte → Instr) : Prop :=
  ∀ a b : Byte, decodeRequest (requestWord op a b) = .ok (i a b)

/-- The number the `GENERIC` layout makes of the fields (R53). -/
def genericNumber (p : PacketFields) : Nat := p.b3.toNat * 16 + p.b4.toNat / 16

/-- The outcomes R135 calls errors are told by the response. -/
def State.answersWith (s t : State) (c : Code) (v : Word16) : Prop :=
  t.responses = s.responses ++ [{ code := c, val := v }]

/-- The report the procedure of 45_host_software.md R130 makes of a line under the checksum range `n`, from the pure
functions alone. -/
def expectedReport (n : Nat) (line : List Char) : Report :=
  match frameScan line with
  | .diagnostic => .diagnostic
  | .skipped => .malformedSkipped
  | .frame q ts =>
    if checksum q n = 0 then
      .accepted q ((tagOf q.b0).setWidth 16) 0 ((kindOf (tagOf q.b0)).bits.setWidth 16)
        (fieldValue (kindOf (tagOf q.b0)) q.b3 q.b4) (Config.fpRound (windSpeed q.b1))
        (Config.fpRound (windDirection q.b2))
        (if kindOf (tagOf q.b0) = .temp then
          some (Config.fpRound (degC (fieldValue (kindOf (tagOf q.b0)) q.b3 q.b4))) else none) ts
    else .rejected q ((tagOf q.b0).setWidth 16) (checksum q n) ts

end Sys2Proof.Machine
end

