-- ==== Sys2Proof/Certificates/Slice0/Obligations.lean ====
section
/-! DEFINITION. The statements for the provers. Each docstring names the rule of spec/ it formalises. -/

open Sys2Proof Sys2Proof.Machine

/-! ### Encoding -/

/-- 30_encoding.md R60, R61: the decoder gives back every encoded instruction, of both spaces and at every operand
value, and a word that decodes is the encoding of what it decodes to. -/
def Obligations.DecodeAndEncodeAreInverse : Prop :=
  (∀ i : Instr, decode (encode i) = .ok i) ∧
  (∀ (e : Encoded) (i : Instr), decode e = .ok i → encode i = e)

/-- R54: a request word is illegal in exactly the cases (a), (b), (c), the all-zeros and the all-ones word are, and an
illegal request changes no state except `ERR` and `ECODE`. -/
def Obligations.IllegalRequestWordsAnswerIllegal : Prop :=
  (∀ w : RequestWord,
    (∃ e, decodeRequest w = .error e) ↔
      (requestOp w ∉ [0x10#8, 0x11#8, 0x12#8, 0x20#8, 0x21#8, 0x22#8, 0x23#8, 0x30#8, 0x31#8, 0x40#8, 0x41#8, 0x42#8,
          0x43#8, 0x44#8, 0x50#8, 0x51#8, 0x52#8]) ∨
      (requestOp w ∈ [0x10#8, 0x20#8, 0x22#8, 0x23#8, 0x30#8, 0x31#8, 0x52#8] ∧ (requestA w ≠ 0 ∨ requestB w ≠ 0)) ∨
      (requestOp w ∈ [0x12#8, 0x21#8, 0x40#8, 0x44#8, 0x50#8] ∧ requestB w ≠ 0)) ∧
  (∃ e, decodeRequest 0x000000#24 = .error e) ∧ (∃ e, decodeRequest 0xFFFFFF#24 = .error e) ∧
  (∀ (s : State) (w : RequestWord) (rest : List HostEvent) (e : DecodeError),
    s.pending = .request w :: rest → decodeRequest w = .error e →
      step s = .next (State.afterError { s with pending := rest } .eIllegal))

/-- R54: 328 967 of the 2^24 request words decode to an operation. -/
def Obligations.LegalRequestWordCount : Prop :=
  ((Finset.range (2 ^ 24)).filter fun n => (decodeRequest (BitVec.ofNat 24 n)).toOption.isSome = true).card = 328967

/-- R47, R51, R58: words written out in the spec decode to the operations it names, and a packet word to its row. -/
def Obligations.SpecWordsDecode : Prop :=
  decodeRequest 0x100000#24 = .ok .pclr ∧ decodeRequest 0x11030C#24 = .ok (.pstb 3 0x0C) ∧
  decodeRequest 0x120900#24 = .ok (.pldb 9) ∧ decodeRequest 0x213100#24 = .ok (.cbyte 0x31) ∧
  decodeRequest 0x310000#24 = .ok .pdec ∧ decodeRequest 0x40D000#24 = .ok (.rev8 0xD0) ∧
  decodeRequest 0x423205#24 = .ok (.cmb12h 0x32 0x05) ∧ decodeRequest 0x51010A#24 = .ok (.wrc 1 10) ∧
  decodeRequest 0x500700#24 = .ok (.rdr 7) ∧
  decodePacket 0x800D800C8000469BFFFF#80 =
    .pktTemp { x0 := 0, ws := 0x0D, wd := 0x80, b3 := 0x0C, b4 := 0x80, x5 := 0x00469B, ck := 0xFFFF }

/-! ### The step -/

/-- R9, R155: a step runs the decoded request at the head of what the host issued, with that request taken; a word
that does not decode raises `E_ILLEGAL`; a `RESET` resets; with nothing issued nothing changes. -/
def Obligations.StepRunsTheDecodedRequest : Prop :=
  ∀ (s : State) (rest : List HostEvent),
    (∀ w i, s.pending = .request w :: rest → decodeRequest w = .ok i →
      step s = exec i { s with pending := rest }) ∧
    (∀ w e, s.pending = .request w :: rest → decodeRequest w = .error e →
      step s = .next (State.afterError { s with pending := rest } .eIllegal)) ∧
    (s.pending = .reset :: rest →
      step s = .next { State.reset with pending := rest, responses := s.responses }) ∧
    (s.pending = [] → step s = .next s)

/-- R51, R61, 42_decode.md R95 (how a packet row runs is log entry 1): when the buffer holds the ten bytes of a packet
word, the step that takes the word of `PDEC` is the row that word decodes to; the ten bytes put together are the word.
-/
def Obligations.PdecRunsThePacketInTheBuffer : Prop :=
  (∀ P : PacketWord, (RawPacket.ofWord P).word = P) ∧
  ∀ (s : State) (rest : List HostEvent) (P : PacketWord),
    s.pending = .request 0x310000#24 :: rest → s.pkt.Holds (RawPacket.ofWord P) →
      step s = exec (decodePacket P) { s with pending := rest }

/-- R9, R135: a step always completes. -/
def Obligations.StepAlwaysAnswers : Prop :=
  ∀ s : State, ∃ t, step s = .next t

/-- R9, R49, R50, R135, R136: one request, one response; an error's value is 0x0000; `BADCRC` comes from `PDEC` only
and its value is not zero. -/
def Obligations.EveryRequestGetsOneResponse : Prop :=
  ∀ (s : State) (w : RequestWord) (rest : List HostEvent), s.pending = .request w :: rest →
    ∃ t c v, step s = .next t ∧ t.pending = rest ∧ s.answersWith t c v ∧
      (c.isError = true → v = 0) ∧ (c = .badcrc → w = 0x310000#24 ∧ v ≠ 0)

/-- R9, R167: every finite sequence of requests is answered, one response each, in as many steps. -/
def Obligations.EveryRequestSequenceIsAnswered : Prop :=
  ∀ (ws : List RequestWord) (s : State), s.pending = ws.map HostEvent.request →
    ∃ (t : State) (rs : List Response), Host.Core.run Sys2Proof.core ws.length s = .next t ∧ t.pending = [] ∧
      t.responses = s.responses ++ rs ∧ rs.length = ws.length

/-! ### Invariants and reset -/

/-- 10_state.md R17: true after reset and preserved by every step. The clause `State.Inv.memory`, the canonical form of
the packet buffer, is the model's (DESIGN CHOICE, log entry 6), not R17's. -/
def Obligations.StepKeepsTheRegisterInvariants : Prop :=
  State.reset.Inv ∧ ∀ s t : State, s.Inv → step s = .next t → t.Inv

/-- R17, R27, R155: the invariants hold at reset and after a `RESET` event from any state. The clause `State.Inv.memory`,
the canonical form of the packet buffer, is the model's (DESIGN CHOICE, log entry 6), not R17's. -/
def Obligations.ResetMeetsTheRegisterInvariants : Prop :=
  State.reset.Inv ∧
  ∀ (s : State) (rest : List HostEvent), s.pending = .reset :: rest → ∃ t, step s = .next t ∧ t.Inv

/-- 20_memory.md R30, R37 (the form is the model's, log entry 6): every instruction keeps the packet buffer's
canonical form, so no index outside 0 to 9 ever holds a byte. -/
def Obligations.ExecKeepsThePacketBufferCanonical : Prop :=
  ∀ (i : Instr) (s t : State), s.pkt.wf = true → exec i s = .next t →
    t.pkt.wf = true ∧ ∀ a, 10 ≤ a → t.pkt.read a = none

/-- 10_state.md R27: every piece of state after `RESET`, from any state, and in `State.reset`. That `RESET` keeps what the
host has still issued and what was answered is the model's (DESIGN CHOICE, log entries 2 and 3). -/
def Obligations.ResetLeavesTheStatedValues : Prop :=
  ∀ (s : State) (rest : List HostEvent), s.pending = .reset :: rest →
    ∃ t, step s = .next t ∧
      (∀ u, u = t ∨ u = State.reset →
        (∀ a, u.pkt.read a = none) ∧ u.pkt.pv = 0 ∧ u.acc = 0x0000 ∧ u.len = 8 ∧ u.status.word = 0x0000 ∧
        u.status.done = false ∧ u.status.ok = false ∧ u.status.bad = false ∧ u.status.err = false ∧
        u.status.ecode = 0 ∧ u.results.rTag = none ∧ u.results.rCrc = none ∧ u.results.rKind = none ∧
        u.results.rVal = none ∧ u.results.rWspd = none ∧ u.results.rWdir = none) ∧
      t.pending = rest ∧ t.responses = s.responses

/-- 70_reset_and_hazards.md R156: the state after `RESET` and the state after `PCLR` differ only in `ACC`, `CFG.LEN`,
`ERR` and `ECODE`. They differ in the model's list of responses too, which `RESET` keeps and `PCLR` adds to (DESIGN
CHOICE, log entry 3). -/
def Obligations.ResetAndPclrDifferOnlyInAccLenAndError : Prop :=
  ∀ (s : State) (rest : List HostEvent), s.pending = .reset :: rest →
    ∃ t u, step s = .next t ∧ exec .pclr { s with pending := rest } = .next u ∧
      t = { u with
        acc := 0, len := 8, status := { u.status with err := false, ecode := 0 }, responses := s.responses } ∧
      u.acc = s.acc ∧ u.len = s.len ∧ u.status.err = s.status.err ∧ u.status.ecode = s.status.ecode

/-! ### Errors -/

/-- 60_exceptions.md R138: whatever the instruction or the request word, an error response means that nothing but
`ERR` and `ECODE` changed (and the request was taken), the first error's code is kept, and the value answered is
0x0000. -/
def Obligations.ErrorsChangeOnlyErrAndEcode : Prop :=
  (∀ (i : Instr) (s t : State) (c : Code) (v : Word16),
    exec i s = .next t → s.answersWith t c v → c.isError = true → t = s.afterError c) ∧
  (∀ (s t : State) (w : RequestWord) (rest : List HostEvent) (c : Code) (v : Word16),
    s.pending = .request w :: rest → step s = .next t → s.answersWith t c v → c.isError = true →
      t = State.afterError { s with pending := rest } c)

/-- 60_exceptions.md R148: a second error while `ERR = 1` sets nothing new, and its own code is still returned. -/
def Obligations.SecondErrorSetsNothingNew : Prop :=
  (∀ (i : Instr) (s t : State) (c : Code) (v : Word16), s.status.err = true →
    exec i s = .next t → s.answersWith t c v → c.isError = true →
      t = { s with responses := s.responses ++ [{ code := c, val := 0 }] }) ∧
  (∀ (s : State) (w : RequestWord) (rest : List HostEvent) (e : DecodeError), s.status.err = true →
    s.pending = .request w :: rest → decodeRequest w = .error e →
      step s = .next { s with
        pending := rest, responses := s.responses ++ [{ code := .eIllegal, val := 0 }] })

/-- 60_exceptions.md R139: `E_ILLEGAL` of a word that does not decode comes before every other error, whatever the
operands and the state; `E_INDEX` before `E_UNINIT`, `E_NOVALUE` and `E_CFG`, whatever the state and the value. `PLDB
i` with `b` not zero and `i` above 9 is a case of the first. -/
def Obligations.ErrorPriority : Prop :=
  (∀ (s : State) (rest : List HostEvent) (w : RequestWord) (e : DecodeError), decodeRequest w = .error e →
    s.pending = .request w :: rest → step s = .next (State.afterError { s with pending := rest } .eIllegal)) ∧
  (∀ (i b : Byte), b ≠ 0 → ∃ e, decodeRequest (requestWord 0x12 i b) = .error e) ∧
  (∀ (s : State) (r v : Byte), r ≠ 1 → exec (.wrc r v) s = .next (s.afterError .eIndex)) ∧
  (∀ (s : State) (i : Byte), 9 < i.toNat → exec (.pldb i) s = .next (s.afterError .eIndex)) ∧
  (∀ (s : State) (r : Byte), 9 < r.toNat → exec (.rdr r) s = .next (s.afterError .eIndex))

/-- 30_encoding.md R48: an operand value the spec calls illegal answers `E_INDEX` or `E_CFG`, and with legal operands
(and `CFG.LEN` in 1 to 10, R15) no instruction answers either. -/
def Obligations.IllegalOperandsAndOnlyTheyAnswerIndexOrCfg : Prop :=
  (∀ (i : Instr) (s : State), i.wellFormed = false →
    exec i s = .next (s.afterError .eIndex) ∨ exec i s = .next (s.afterError .eCfg)) ∧
  (∀ (i : Instr) (s t : State) (c : Code) (v : Word16), i.wellFormed = true → s.len.toNat ≤ 10 →
    exec i s = .next t → s.answersWith t c v → c ≠ .eIndex ∧ c ≠ .eCfg)

/-! ### What only some instructions write -/

/-- 10_state.md R14: `ACC` is written by `CINIT` and `CBYTE` and by no other instruction. -/
def Obligations.AccumulatorWrittenOnlyByCinitAndCbyte : Prop :=
  ∀ (i : Instr) (s t : State), exec i s = .next t →
    (i = .cinit → t.acc = 0x0000) ∧ (∀ d, i = .cbyte d → t.acc = crc16Byte s.acc d) ∧
    (i ≠ .cinit → (∀ d, i ≠ .cbyte d) → t.acc = s.acc)

/-- 10_state.md R12: a packet byte is written by a `PSTB` to its index and cleared by `PCLR`, and by nothing else. -/
def Obligations.PacketBytesWrittenOnlyByPstbAndPclr : Prop :=
  ∀ (i : Instr) (s t : State) (a : Nat), exec i s = .next t → t.pkt.read a ≠ s.pkt.read a →
    (i = .pclr ∧ t.pkt.read a = none) ∨ ∃ j d, i = .pstb j d ∧ j.toNat = a ∧ t.pkt.read a = some d

/-- 10_state.md R15, 70_reset_and_hazards.md R161: `CFG.LEN` is written by `WRC 1, v` with `v` in 1 to 10 only. -/
def Obligations.ChecksumRangeWrittenOnlyByWrc : Prop :=
  ∀ (i : Instr) (s t : State), exec i s = .next t → t.len ≠ s.len →
    ∃ v, i = .wrc 1 v ∧ 1 ≤ v.toNat ∧ v.toNat ≤ 10 ∧ t.len.toNat = v.toNat

/-- 70_reset_and_hazards.md R166: the sticky error stays from the first error until `ECLR`, with its code. -/
def Obligations.StickyErrorClearedOnlyByEclr : Prop :=
  ∀ (i : Instr) (s t : State), exec i s = .next t → s.status.err = true → i ≠ .eclr →
    t.status.err = true ∧ t.status.ecode = s.status.ecode

/-- 70_reset_and_hazards.md R159: whenever a step changes the packet buffer or the checksum range, no result is left.
-/
def Obligations.NoStaleResults : Prop :=
  ∀ (s t : State), step s = .next t → ((∃ a, t.pkt.read a ≠ s.pkt.read a) ∨ t.len ≠ s.len) →
    t.status.done = false ∧ t.status.ok = false ∧ t.status.bad = false ∧
    t.results.rTag = none ∧ t.results.rCrc = none ∧ t.results.rKind = none ∧ t.results.rVal = none ∧
    t.results.rWspd = none ∧ t.results.rWdir = none

/-! ### Independence -/

/-- 70_reset_and_hazards.md R160: every instruction but `CINIT`, `CBYTE`, `CRD` and `RDR 2` runs the same whatever
`ACC` holds, and leaves it; the first three run the same whatever the packet side holds, and leave it. -/
def Obligations.AccumulatorAndPacketPathsDoNotInterfere : Prop :=
  (∀ (i : Instr) (s t : State) (x : Word16), i ≠ .cinit → (∀ d, i ≠ .cbyte d) → i ≠ .crd → i ≠ .rdr 2 →
    exec i s = .next t → exec i { s with acc := x } = .next { t with acc := x }) ∧
  (∀ (i : Instr) (s t : State) (m : Memory) (n : BitVec 4) (st : Status) (r : Results),
    (i = .cinit ∨ (∃ d, i = .cbyte d) ∨ i = .crd) → exec i s = .next t →
      exec i { s with pkt := m, len := n, status := st, results := r } =
        .next { t with pkt := m, len := n, status := st, results := r } ∧
      t.pkt = s.pkt ∧ t.len = s.len ∧ t.status = s.status ∧ t.results = s.results)

/-- 42_decode.md R96: on a loaded buffer the response of `PDEC` and `DONE`, `OK`, `BAD` and the six result registers
after it depend on the ten bytes and `CFG.LEN` only. -/
def Obligations.PdecIsPure : Prop :=
  ∀ (s₁ s₂ t₁ t₂ : State) (q : RawPacket), s₁.pkt.Holds q → s₂.pkt.Holds q → s₁.len = s₂.len →
    exec .pdec s₁ = .next t₁ → exec .pdec s₂ = .next t₂ →
      (∃ r, t₁.responses = s₁.responses ++ [r] ∧ t₂.responses = s₂.responses ++ [r]) ∧ t₁.results = t₂.results ∧
      t₁.status.done = t₂.status.done ∧ t₁.status.ok = t₂.status.ok ∧ t₁.status.bad = t₂.status.bad

/-- 70_reset_and_hazards.md R165: an instruction other than `CBYTE` issued twice leaves the state it left once, and
answers the same. -/
def Obligations.RepeatingAnyOperationIsHarmless : Prop :=
  ∀ (i : Instr) (s t u : State), (∀ d, i ≠ .cbyte d) → exec i s = .next t → exec i t = .next u →
    ∃ r, t.responses = s.responses ++ [r] ∧ u = { t with responses := s.responses ++ [r, r] }

/-! ### Packet buffer operations -/

/-- 40_packet_buffer.md R65: the word of `PCLR`; it runs in every state; every cell is `NONE`, the flags and the
result registers are cleared, all else is as before. -/
def Obligations.PclrEmptiesTheBuffer : Prop :=
  EncodedAsZ 0x10 .pclr ∧
  (∀ s : State, ∃ t, exec .pclr s = .next t ∧ (∀ a, t.pkt.read a = none) ∧ t.pkt.pv = 0 ∧
      t = State.afterAnswer { s.withoutResults with pkt := t.pkt } 0)

/-- 40_packet_buffer.md R66: the words of `PSTB`; `PSTB i, d` with `i` up to 9 stores `d` at index `i` and at no
other, and clears the results; above 9 it answers `E_INDEX` and stores nothing. -/
def Obligations.PstbStoresOneByte : Prop :=
  EncodedAsAB 0x11 .pstb ∧
  (∀ (i d : Byte) (s : State), i.toNat ≤ 9 →
    ∃ t, exec (.pstb i d) s = .next t ∧ t.pkt.read i.toNat = some d ∧
      (∀ a, a ≠ i.toNat → t.pkt.read a = s.pkt.read a) ∧
      t = State.afterAnswer { s.withoutResults with pkt := t.pkt } 0) ∧
  (∀ (i d : Byte) (s : State), 9 < i.toNat → exec (.pstb i d) s = .next (s.afterError .eIndex))

/-- 40_packet_buffer.md R67: the words of `PLDB`; `PLDB i` answers the byte zero-extended and changes no state; an
unwritten byte answers `E_UNINIT`, an index above 9 `E_INDEX`. -/
def Obligations.PldbReadsOneByte : Prop :=
  EncodedAsA 0x12 .pldb ∧
  (∀ (i v : Byte) (s : State), i.toNat ≤ 9 → s.pkt.read i.toNat = some v →
    ∃ x : Word16, x.toNat = v.toNat ∧ exec (.pldb i) s = .next (s.afterAnswer x)) ∧
  (∀ (i : Byte) (s : State), i.toNat ≤ 9 → s.pkt.read i.toNat = none →
    exec (.pldb i) s = .next (s.afterError .eUninit)) ∧
  (∀ (i : Byte) (s : State), 9 < i.toNat → exec (.pldb i) s = .next (s.afterError .eIndex))

/-! ### CRC operations -/

/-- 41_crc.md R75, R77: the words of `CINIT` and `CRD`; `CINIT` writes 0x0000 to `ACC` and nothing else; `CRD` answers
`ACC` and changes no state. -/
def Obligations.CinitClearsAndCrdReadsTheAccumulator : Prop :=
  EncodedAsZ 0x20 .cinit ∧ EncodedAsZ 0x22 .crd ∧
  (∀ s : State,
      exec .cinit s = .next (State.afterAnswer { s with acc := 0x0000 } 0x0000) ∧
      exec .crd s = .next (s.afterAnswer s.acc))

/-- 41_crc.md R76: the words of `CBYTE`; `CBYTE d` writes and answers `crc16_byte(ACC, d)`, the eight rounds of R71
begun from `ACC` with `d` put into its high byte by exclusive or, and writes nothing else; a round (R70) as a number.
-/
def Obligations.CbyteAddsOneByte : Prop :=
  EncodedAsA 0x21 .cbyte ∧
  (∀ (d : Byte) (s : State),
      exec (.cbyte d) s = .next (State.afterAnswer { s with acc := crc16Byte s.acc d } (crc16Byte s.acc d)) ∧
      crc16Byte s.acc d =
        crc16Bit (crc16Bit (crc16Bit (crc16Bit (crc16Bit (crc16Bit (crc16Bit (crc16Bit (s.acc ^^^ (d ++ 0x00#8)))))))))) ∧
  (∀ x : Word16, (crc16Bit x).toNat =
    if x.toNat < 0x8000 then 2 * x.toNat else (2 * x.toNat - 0x10000) ^^^ 0x1021)

/-- 41_crc.md R72, 30_encoding.md R59: the pseudo-instruction `CRC16 d0 … dk` ends with `CRC16` of the bytes in `ACC`
and in the last response, whatever `ACC` held, and leaves the packet side alone. -/
def Obligations.StreamingChecksumIsCrc16 : Prop :=
  ∀ (ds : List Byte) (s : State) (rest : List HostEvent),
    s.pending = (requestWords (Pseudo.crc16 ds).expand).map HostEvent.request ++ rest →
    ∃ (t : State) (rs : List Response), Host.Core.run Sys2Proof.core (ds.length + 2) s = .next t ∧ t.acc = crc16 ds ∧
      t.responses = s.responses ++ rs ++ [{ code := .ok, val := crc16 ds }] ∧ rs.length = ds.length + 1 ∧
      t.pending = rest ∧ t.pkt = s.pkt ∧ t.len = s.len ∧ t.status = s.status ∧ t.results = s.results

/-- 41_crc.md R78: the word of `PCRC`; it answers `crc16` of the first `CFG.LEN` bytes and changes no state; an
unwritten byte below `CFG.LEN` answers `E_UNINIT`. -/
def Obligations.PcrcReadsThePrefixChecksum : Prop :=
  EncodedAsZ 0x23 .pcrc ∧
  (∀ (s : State) (bs : List Byte), s.len.toNat ≤ 10 → bs.length = s.len.toNat →
    (∀ (k : Nat) (h : k < bs.length), s.pkt.read k = some bs[k]) →
      exec .pcrc s = .next (s.afterAnswer (crc16 bs))) ∧
  (∀ (s : State) (k : Nat), s.len.toNat ≤ 10 → k < s.len.toNat → s.pkt.read k = none →
    exec .pcrc s = .next (s.afterError .eUninit))

/-! ### Decode operations and packet rows -/

/-- 42_decode.md R94: the word of `PTAG`; it answers the top four bits of byte 0, whatever the other bytes are. -/
def Obligations.PtagReadsTheTypeTag : Prop :=
  EncodedAsZ 0x30 .ptag ∧
  (∀ (s : State) (b : Byte), s.pkt.read 0 = some b →
    ∃ x : Word16, x.toNat = b.toNat / 16 ∧ exec .ptag s = .next (s.afterAnswer x)) ∧
  (∀ s : State, s.pkt.read 0 = none → exec .ptag s = .next (s.afterError .eUninit))

/-- 42_decode.md R95: the word of `PDEC`; on a loaded buffer it accepts when the checksum over `CFG.LEN` bytes is
zero, and then writes all six result registers; otherwise it rejects with the checksum, and the four field registers
are `NONE`; with any of the ten bytes unwritten it answers `E_UNINIT`. -/
def Obligations.PdecValidatesAndDecodes : Prop :=
  EncodedAsZ 0x31 .pdec ∧
  (∀ (s : State) (q : RawPacket), s.pkt.Holds q → checksum q s.len.toNat = 0 →
    exec .pdec s = .next (s.afterAccept (tagOf q.b0) (kindOf (tagOf q.b0)).bits
      (fieldValue (kindOf (tagOf q.b0)) q.b3 q.b4) q.b1 q.b2)) ∧
  (∀ (s : State) (q : RawPacket), s.pkt.Holds q → checksum q s.len.toNat ≠ 0 →
    exec .pdec s = .next (s.afterReject (tagOf q.b0) (checksum q s.len.toNat))) ∧
  (∀ (s : State) (i : Nat), i < 10 → s.pkt.read i = none → exec .pdec s = .next (s.afterError .eUninit))

/-- 42_decode.md R89 to R91, 30_encoding.md R52, R53: the three recognised rows, their layout number and the number
each makes of bytes 3 and 4; on a zero checksum the row is accepted, else rejected (what a packet row does is log
entry 1). -/
def Obligations.RecognisedPacketRowsDecode : Prop :=
  PacketRowDecodes .pktTemp 0x8 1 (fun p => p.b3.toNat * 256 + p.b4.toNat) ∧
  PacketRowDecodes .pktHum 0xA 2 (fun p => p.b3.toNat + (p.b4.toNat / 16) * 256) ∧
  PacketRowDecodes .pktRain 0xE 3 (fun p => p.b3.toNat % 128)

/-- 42_decode.md R93, 30_encoding.md R52, R53: the thirteen other rows, all with the `GENERIC` layout (log entry 1).
-/
def Obligations.GenericPacketRowsDecode : Prop :=
  PacketRowDecodes .pktGeneric0 0x0 0 genericNumber ∧ PacketRowDecodes .pktGeneric1 0x1 0 genericNumber ∧
  PacketRowDecodes .pktGeneric2 0x2 0 genericNumber ∧ PacketRowDecodes .pktGeneric3 0x3 0 genericNumber ∧
  PacketRowDecodes .pktGeneric4 0x4 0 genericNumber ∧ PacketRowDecodes .pktGeneric5 0x5 0 genericNumber ∧
  PacketRowDecodes .pktGeneric6 0x6 0 genericNumber ∧ PacketRowDecodes .pktGeneric7 0x7 0 genericNumber ∧
  PacketRowDecodes .pktGeneric9 0x9 0 genericNumber ∧ PacketRowDecodes .pktGenericB 0xB 0 genericNumber ∧
  PacketRowDecodes .pktGenericC 0xC 0 genericNumber ∧ PacketRowDecodes .pktGenericD 0xD 0 genericNumber ∧
  PacketRowDecodes .pktGenericF 0xF 0 genericNumber

/-- 30_encoding.md R55: of two accepted packets, byte 0 bits 3:0, bytes 5 to 9 and the bits a layout does not use (the
low nibble of `b4` for `HUM` and `GENERIC`; bit 7 of `b3` and all of `b4` for `RAIN`) do not reach the result. -/
def Obligations.IgnoredFieldsDoNotReachTheResults : Prop :=
  ∀ (q q' : RawPacket) (n n' : Nat), checksum q n = 0 → checksum q' n' = 0 →
    tagOf q.b0 = tagOf q'.b0 → q.b1 = q'.b1 → q.b2 = q'.b2 →
    (if tagOf q.b0 = 0x8 then q.b3 = q'.b3 ∧ q.b4 = q'.b4
      else if tagOf q.b0 = 0xE then q.b3.toNat % 128 = q'.b3.toNat % 128
      else q.b3 = q'.b3 ∧ q.b4.toNat / 16 = q'.b4.toNat / 16) →
    decodeRawPacket q n = decodeRawPacket q' n'

/-- 30_encoding.md R59, 70_reset_and_hazards.md R158, 42_decode.md R96: `DECODE d0 … d9` from any state, whatever was
in the buffer, answers eleven times `OK` and then the decoder's result for exactly these ten bytes, and never an
error. -/
def Obligations.DecodeSequenceAnswersTheDecoder : Prop :=
  ∀ (q : RawPacket) (s : State) (rest : List HostEvent),
    s.pending = (requestWords (Pseudo.decode q).expand).map HostEvent.request ++ rest →
    ∃ t : State, Host.Core.run Sys2Proof.core 12 s = .next t ∧ t.pending = rest ∧ t.pkt.Holds q ∧
      t.responses = s.responses ++ List.replicate 11 { code := .ok, val := 0 } ++
        [if checksum q s.len.toNat = 0 then
            { code := .ok, val := fieldValue (kindOf (tagOf q.b0)) q.b3 q.b4 }
          else { code := .badcrc, val := checksum q s.len.toNat }] ∧
      t.acc = s.acc ∧ t.len = s.len ∧ t.status.err = s.status.err ∧ t.status.ecode = s.status.ecode

/-! ### Utility operations -/

/-- 43_utility.md R102: the words of `REV8`; `REV8 d` answers `d` with its bits in the opposite order, zero-extended,
and changes no state. -/
def Obligations.Rev8ReversesTheBits : Prop :=
  EncodedAsA 0x40 .rev8 ∧
  (∀ (d : Byte) (s : State), ∃ x : Word16, exec (.rev8 d) s = .next (s.afterAnswer x) ∧
      (∀ i, i < 8 → x.getLsbD i = d.getLsbD (7 - i)) ∧ (∀ i, 8 ≤ i → x.getLsbD i = false))

/-- 43_utility.md R103 to R106: the words of the four field combines, and each as a number, at every operand value; no
state changes. -/
def Obligations.FieldCombinesComputeTheirFormulas : Prop :=
  EncodedAsAB 0x41 .cmb12 ∧ EncodedAsAB 0x42 .cmb12h ∧ EncodedAsAB 0x43 .cmb16 ∧ EncodedAsA 0x44 .msk7 ∧
  (∀ (a b : Byte) (s : State),
      (∃ x : Word16, x.toNat = a.toNat * 16 + b.toNat / 16 ∧ exec (.cmb12 a b) s = .next (s.afterAnswer x)) ∧
      (∃ x : Word16, x.toNat = a.toNat + (b.toNat / 16) * 256 ∧ exec (.cmb12h a b) s = .next (s.afterAnswer x)) ∧
      (∃ x : Word16, x.toNat = a.toNat * 256 + b.toNat ∧ exec (.cmb16 a b) s = .next (s.afterAnswer x)) ∧
      (∃ x : Word16, x.toNat = a.toNat % 128 ∧ exec (.msk7 a) s = .next (s.afterAnswer x)))

/-! ### System operations -/

/-- 44_system.md R110, 10_state.md R25, R26: the words of `RDR`; `RDR` of registers 0 to 3 always answers, and changes
no state: `STATUS` with its flags at their bits, `CFG.LEN`, `ACC`, and `PVLD` with bit `i` the valid bit of cell `i`.
-/
def Obligations.RdrReadsStatusAndControl : Prop :=
  EncodedAsA 0x50 .rdr ∧
  (∀ s : State,
      (∃ x : Word16, exec (.rdr 0) s = .next (s.afterAnswer x) ∧
        x.toNat = s.status.done.toNat + 2 * s.status.ok.toNat + 4 * s.status.bad.toNat + 8 * s.status.err.toNat +
          16 * s.status.ecode.toNat) ∧
      (∃ x : Word16, exec (.rdr 1) s = .next (s.afterAnswer x) ∧ x.toNat = s.len.toNat) ∧
      exec (.rdr 2) s = .next (s.afterAnswer s.acc) ∧
      (∃ x : Word16, exec (.rdr 3) s = .next (s.afterAnswer x) ∧
        ∀ i, x.getLsbD i = (decide (i < 10) && (s.pkt.read i).isSome)))

/-- 44_system.md R110, 10_state.md R18 to R25: `RDR` of registers 4 to 9 answers the value a result register holds,
zero-extended, or `E_NOVALUE` when it is `NONE`; above 9 it answers `E_INDEX`. -/
def Obligations.RdrReadsTheResultRegisters : Prop :=
  (∀ (s : State) (v : BitVec 4), s.results.rTag = some v →
    ∃ x : Word16, x.toNat = v.toNat ∧ exec (.rdr 4) s = .next (s.afterAnswer x)) ∧
  (∀ (s : State) (v : Word16), s.results.rCrc = some v → exec (.rdr 5) s = .next (s.afterAnswer v)) ∧
  (∀ (s : State) (v : BitVec 2), s.results.rKind = some v →
    ∃ x : Word16, x.toNat = v.toNat ∧ exec (.rdr 6) s = .next (s.afterAnswer x)) ∧
  (∀ (s : State) (v : Word16), s.results.rVal = some v → exec (.rdr 7) s = .next (s.afterAnswer v)) ∧
  (∀ (s : State) (v : Byte), s.results.rWspd = some v →
    ∃ x : Word16, x.toNat = v.toNat ∧ exec (.rdr 8) s = .next (s.afterAnswer x)) ∧
  (∀ (s : State) (v : Byte), s.results.rWdir = some v →
    ∃ x : Word16, x.toNat = v.toNat ∧ exec (.rdr 9) s = .next (s.afterAnswer x)) ∧
  (∀ s : State, s.results.rTag = none → exec (.rdr 4) s = .next (s.afterError .eNovalue)) ∧
  (∀ s : State, s.results.rCrc = none → exec (.rdr 5) s = .next (s.afterError .eNovalue)) ∧
  (∀ s : State, s.results.rKind = none → exec (.rdr 6) s = .next (s.afterError .eNovalue)) ∧
  (∀ s : State, s.results.rVal = none → exec (.rdr 7) s = .next (s.afterError .eNovalue)) ∧
  (∀ s : State, s.results.rWspd = none → exec (.rdr 8) s = .next (s.afterError .eNovalue)) ∧
  (∀ s : State, s.results.rWdir = none → exec (.rdr 9) s = .next (s.afterError .eNovalue)) ∧
  (∀ (s : State) (r : Byte), 9 < r.toNat → exec (.rdr r) s = .next (s.afterError .eIndex))

/-- 44_system.md R110 (corner cases), on states that meet the invariants of R17: registers 4 and 5 are `NONE` exactly
when `DONE = 0`, registers 6 to 9 exactly when `OK = 0`. -/
def Obligations.ResultRegistersAbsentExactlyWhenNotDone : Prop :=
  ∀ s : State, s.Inv →
    (∀ r ∈ [4#8, 5#8], exec (.rdr r) s = .next (s.afterError .eNovalue) ↔ s.status.done = false) ∧
    (∀ r ∈ [6#8, 7#8, 8#8, 9#8], exec (.rdr r) s = .next (s.afterError .eNovalue) ↔ s.status.ok = false)

/-- 44_system.md R111: the words of `WRC`; `WRC 1, v` with `v` in 1 to 10 sets `CFG.LEN`, clears the results, keeps
the packet buffer and `ACC`, and answers `v`; another `v` answers `E_CFG`, another register `E_INDEX`, and nothing
else changes. -/
def Obligations.WrcSetsTheChecksumRange : Prop :=
  EncodedAsAB 0x51 .wrc ∧
  (∀ (v : Byte) (s : State), 1 ≤ v.toNat → v.toNat ≤ 10 →
    ∃ (n : BitVec 4) (x : Word16), n.toNat = v.toNat ∧ x.toNat = v.toNat ∧
      exec (.wrc 1 v) s = .next (State.afterAnswer { s.withoutResults with len := n } x)) ∧
  (∀ (v : Byte) (s : State), v.toNat = 0 ∨ 10 < v.toNat → exec (.wrc 1 v) s = .next (s.afterError .eCfg)) ∧
  (∀ (r v : Byte) (s : State), r ≠ 1 → exec (.wrc r v) s = .next (s.afterError .eIndex))

/-- 44_system.md R112: the word of `ECLR`; it clears `ERR` and `ECODE` and nothing else. -/
def Obligations.EclrClearsTheStickyError : Prop :=
  EncodedAsZ 0x52 .eclr ∧
  (∀ s : State,
      exec .eclr s = .next (State.afterAnswer { s with status := { s.status with err := false, ecode := 0 } } 0x0000))

/-! ### The function layer -/

/-- 41_crc.md R74: a message followed by its own CRC, high byte first, checks to zero. -/
def Obligations.MessageWithItsCrcChecksToZero : Prop :=
  ∀ m : List Byte, crc16 (m ++ [(crc16 m).extractLsb' 8 8, (crc16 m).extractLsb' 0 8]) = 0

/-- 41_crc.md R74: linearity of `crc16_byte` over exclusive or. -/
def Obligations.CrcByteIsLinear : Prop :=
  ∀ (acc acc' : Word16) (d d' : Byte), crc16Byte (acc ^^^ acc') (d ^^^ d') = crc16Byte acc d ^^^ crc16Byte acc' d'

/-- 41_crc.md R74: every single-bit change is detected, in a sequence of any length. -/
def Obligations.SingleBitChangesAreDetected : Prop :=
  ∀ (before after : List Byte) (d : Byte) (j : Nat), j < 8 →
    crc16 (before ++ (d ^^^ (1#8 <<< j)) :: after) ≠ crc16 (before ++ d :: after)

/-- 41_crc.md R80: the table-driven form returns the same values as the bit-serial form; five entries of the table. -/
def Obligations.TableFormAgreesWithBitSerial : Prop :=
  (∀ (acc : Word16) (d : Byte), crc16ByteTable acc d = crc16Byte acc d) ∧
  crcTable 0x00 = 0x0000 ∧ crcTable 0x01 = 0x1021 ∧ crcTable 0x02 = 0x2042 ∧ crcTable 0x80 = 0x9188 ∧
  crcTable 0xFF = 0x1EF0

/-- 41_crc.md R73: truncating to 16 bits in every round gives what masking to 16 bits after each byte gives, on an
accumulator that may grow in between. -/
def Obligations.MaskingPerByteAgreesWithEveryRound : Prop :=
  ∀ bytes : List Byte, bytes.foldl crcWideByte 0 = (crc16 bytes).toNat

/-- 70_reset_and_hazards.md R164: (a) the all-zero packet is accepted under every range; (b) under the default range
bytes 8 and 9 are unchecked; (c) a packet whose bytes 6 and 7 are the CRC16 of bytes 0 to 5, high byte at 6, is
accepted under the default range, and (41_crc.md R74) exactly such packets are. -/
def Obligations.DegenerateAcceptances : Prop :=
  (∀ n, accepted { b0 := 0, b1 := 0, b2 := 0, b3 := 0, b4 := 0, b5 := 0, b6 := 0, b7 := 0, b8 := 0, b9 := 0 } n = true) ∧
  (∀ (q : RawPacket) (x y : Byte), accepted { q with b8 := x, b9 := y } 8 = accepted q 8) ∧
  (∀ q : RawPacket, accepted q 8 = true ↔ crc16 [q.b0, q.b1, q.b2, q.b3, q.b4, q.b5] = q.b6 ++ q.b7)

/-- 43_utility.md R100, R101: reversal moves bit `7 - i` to bit `i`, is its own inverse, and is the three swaps in any
order. -/
def Obligations.BitReversalIsAnInvolution : Prop :=
  ∀ d : Byte,
    (∀ i, i < 8 → (reverseBits d).getLsbD i = d.getLsbD (7 - i)) ∧ reverseBits (reverseBits d) = d ∧
    swapBits (swapPairs (swapNibbles d)) = reverseBits d ∧ swapPairs (swapBits (swapNibbles d)) = reverseBits d ∧
    swapBits (swapNibbles (swapPairs d)) = reverseBits d ∧ swapNibbles (swapBits (swapPairs d)) = reverseBits d ∧
    swapPairs (swapNibbles (swapBits d)) = reverseBits d ∧ swapNibbles (swapPairs (swapBits d)) = reverseBits d

/-! ### The host's software -/

/-- 45_host_software.md R128: the first observation reports zero; after it, fewer than 128 ticks are recovered
exactly. -/
def Obligations.RainUnwrapRecoversTheTicks : Prop :=
  (∀ current, rainUnwrap none current = (0, some current)) ∧
  (∀ (previous : BitVec 7) (ticks : Nat), ticks < 128 →
    rainUnwrap (some previous) (previous + BitVec.ofNat 7 ticks) =
      (ticks, some (previous + BitVec.ofNat 7 ticks)))

/-- 45_host_software.md R124 to R127: the exact rationals in their closed forms, and the ranges. -/
def Obligations.UnitConversionsAreExact : Prop :=
  (∀ v : Word16, degC v = ((v.toNat : Rat) - 5120) / 288 ∧ -160 / 9 ≤ degC v ∧ degC v ≤ 60415 / 288) ∧
  (∀ b : Byte, windSpeed b = 5 * (b.toNat : Rat) / 13 ∧ 0 ≤ windSpeed b ∧ windSpeed b ≤ 1275 / 13) ∧
  (∀ b : Byte, windDirection b = 24 * (b.toNat : Rat) / 17 ∧ 0 ≤ windDirection b ∧ windDirection b ≤ 360)

/-- 45_host_software.md R130, 00_scope.md R9: the block first takes what the host issued before, in issue order, which
leaves the state `u` (the state itself when nothing was issued). The host's procedure for one line, driving the block
through its steps, ends with the report the pure functions give under `u`'s range, sees no error, and leaves `ERR`,
`ECODE`, `CFG.LEN`, `ACC` as they were in `u`, with everything issued answered. One rounding for the reported numbers is
log entry 10, the order of the register reads log entry 16, what the scanner makes of a line that the spec leaves open
log entries 11, 12, 17 and 19: the model's, not R130's. -/
def Obligations.HostProcedureReportsTheDecoder : Prop :=
  ∀ (s : State) (line : List Char), ∃ u t,
    Host.Core.run Sys2Proof.core s.pending.length s = .next u ∧ u.pending = [] ∧ (s.pending = [] → u = s) ∧
    hostLine s line = some (expectedReport u.len.toNat line, t) ∧
    t.status.err = u.status.err ∧ t.status.ecode = u.status.ecode ∧ t.len = u.len ∧ t.acc = u.acc ∧ t.pending = []

/-- 45_host_software.md R133, R134, 00_scope.md R9: once the block has taken what the host issued before, which leaves the
state `u`, a log of any length is replayed to its end, with one report for each line, each a function of its own line and
`u`'s checksum range alone. It rests on the log entries that the procedure for one line rests on (10, 11, 12, 16, 17,
19). -/
def Obligations.HostReplayReportsEveryLine : Prop :=
  ∀ (lines : List (List Char)) (s : State), ∃ u t,
    Host.Core.run Sys2Proof.core s.pending.length s = .next u ∧ u.pending = [] ∧ (s.pending = [] → u = s) ∧
    hostReplay s lines = some (lines.map (expectedReport u.len.toNat), t) ∧ t.status.err = u.status.err ∧ t.pending = []

/-- 00_scope.md R9: a request issued while others are pending is taken after all of them. The steps that take those leave
the state they leave without it but for the word itself, and the next step takes it. -/
def Obligations.RequestsAreTakenInIssueOrder : Prop :=
  ∀ (s : State) (w : RequestWord), ∃ u,
    Host.Core.run Sys2Proof.core s.pending.length s = .next u ∧ u.pending = [] ∧
    Host.Core.run Sys2Proof.core s.pending.length (s.issue w) = .next { u with pending := [.request w] } ∧
    Host.Core.run Sys2Proof.core (s.pending.length + 1) (s.issue w) = step { u with pending := [.request w] }
end

