-- ==== Sys2Proof/Laws/State.lean ====
section
/-! SUPPORT. One lemma for each field and each update of the state, true by `rfl`, so that no later proof unfolds a
record update. -/

namespace Sys2Proof.Machine

@[simp] theorem config_poly : config.poly = 0x1021 := rfl
@[simp] theorem config_init : config.init = 0 := rfl
@[simp] theorem config_pktLen : config.pktLen = 10 := rfl
@[simp] theorem config_lenDefault : config.lenDefault = 8 := rfl
@[simp] theorem config_lenMin : config.lenMin = 1 := rfl
@[simp] theorem config_lenMax : config.lenMax = 10 := rfl
@[simp] theorem config_tagTemp : config.tagTemp = 0x8 := rfl
@[simp] theorem config_tagHum : config.tagHum = 0xA := rfl
@[simp] theorem config_tagRain : config.tagRain = 0xE := rfl
@[simp] theorem config_rainMask : config.rainMask = 0x7F := rfl

@[simp] theorem State.respond_pkt (s : State) (c : Code) (v : Word16) : (s.respond c v).pkt = s.pkt := rfl
@[simp] theorem State.respond_acc (s : State) (c : Code) (v : Word16) : (s.respond c v).acc = s.acc := rfl
@[simp] theorem State.respond_len (s : State) (c : Code) (v : Word16) : (s.respond c v).len = s.len := rfl
@[simp] theorem State.respond_status (s : State) (c : Code) (v : Word16) : (s.respond c v).status = s.status := rfl
@[simp] theorem State.respond_results (s : State) (c : Code) (v : Word16) : (s.respond c v).results = s.results := rfl
@[simp] theorem State.respond_pending (s : State) (c : Code) (v : Word16) : (s.respond c v).pending = s.pending := rfl
@[simp] theorem State.respond_responses (s : State) (c : Code) (v : Word16) :
    (s.respond c v).responses = s.responses ++ [{ code := c, val := v }] := rfl

@[simp] theorem State.invalidate_pkt (s : State) : s.invalidate.pkt = s.pkt := rfl
@[simp] theorem State.invalidate_acc (s : State) : s.invalidate.acc = s.acc := rfl
@[simp] theorem State.invalidate_len (s : State) : s.invalidate.len = s.len := rfl
@[simp] theorem State.invalidate_status (s : State) : s.invalidate.status = s.status.clearDone := rfl
@[simp] theorem State.invalidate_results (s : State) : s.invalidate.results = Results.none := rfl
@[simp] theorem State.invalidate_pending (s : State) : s.invalidate.pending = s.pending := rfl
@[simp] theorem State.invalidate_responses (s : State) : s.invalidate.responses = s.responses := rfl

@[simp] theorem State.raise_pkt (s : State) (e : Err) : (s.raise e).pkt = s.pkt := rfl
@[simp] theorem State.raise_acc (s : State) (e : Err) : (s.raise e).acc = s.acc := rfl
@[simp] theorem State.raise_len (s : State) (e : Err) : (s.raise e).len = s.len := rfl
@[simp] theorem State.raise_status (s : State) (e : Err) : (s.raise e).status = s.status.latch e.code := rfl
@[simp] theorem State.raise_results (s : State) (e : Err) : (s.raise e).results = s.results := rfl
@[simp] theorem State.raise_pending (s : State) (e : Err) : (s.raise e).pending = s.pending := rfl
@[simp] theorem State.raise_responses (s : State) (e : Err) :
    (s.raise e).responses = s.responses ++ [{ code := e.code, val := 0 }] := rfl

@[simp] theorem State.takeReset_pkt (s : State) : s.takeReset.pkt = [] := rfl
@[simp] theorem State.takeReset_acc (s : State) : s.takeReset.acc = 0 := rfl
@[simp] theorem State.takeReset_len (s : State) : s.takeReset.len = 8 := rfl
@[simp] theorem State.takeReset_status (s : State) : s.takeReset.status = State.reset.status := rfl
@[simp] theorem State.takeReset_results (s : State) : s.takeReset.results = Results.none := rfl
@[simp] theorem State.takeReset_pending (s : State) : s.takeReset.pending = s.pending := rfl
@[simp] theorem State.takeReset_responses (s : State) : s.takeReset.responses = s.responses := rfl

@[simp] theorem State.issue_pending (s : State) (w : RequestWord) :
    (s.issue w).pending = s.pending ++ [.request w] := rfl
@[simp] theorem State.issue_pkt (s : State) (w : RequestWord) : (s.issue w).pkt = s.pkt := rfl
@[simp] theorem State.issue_acc (s : State) (w : RequestWord) : (s.issue w).acc = s.acc := rfl
@[simp] theorem State.issue_len (s : State) (w : RequestWord) : (s.issue w).len = s.len := rfl
@[simp] theorem State.issue_status (s : State) (w : RequestWord) : (s.issue w).status = s.status := rfl
@[simp] theorem State.issue_results (s : State) (w : RequestWord) : (s.issue w).results = s.results := rfl
@[simp] theorem State.issue_responses (s : State) (w : RequestWord) : (s.issue w).responses = s.responses := rfl

@[simp] theorem State.placeRequest_pending (s : State) (w : RequestWord) :
    (s.placeRequest w).pending = .request w :: s.pending := rfl
@[simp] theorem State.placeRequest_pkt (s : State) (w : RequestWord) : (s.placeRequest w).pkt = s.pkt := rfl
@[simp] theorem State.placeRequest_acc (s : State) (w : RequestWord) : (s.placeRequest w).acc = s.acc := rfl
@[simp] theorem State.placeRequest_len (s : State) (w : RequestWord) : (s.placeRequest w).len = s.len := rfl
@[simp] theorem State.placeRequest_status (s : State) (w : RequestWord) : (s.placeRequest w).status = s.status := rfl
@[simp] theorem State.placeRequest_results (s : State) (w : RequestWord) : (s.placeRequest w).results = s.results := rfl
@[simp] theorem State.placeRequest_responses (s : State) (w : RequestWord) : (s.placeRequest w).responses = s.responses := rfl

@[simp] theorem Status.clearDone_done (st : Status) : st.clearDone.done = false := rfl
@[simp] theorem Status.clearDone_ok (st : Status) : st.clearDone.ok = false := rfl
@[simp] theorem Status.clearDone_bad (st : Status) : st.clearDone.bad = false := rfl
@[simp] theorem Status.clearDone_err (st : Status) : st.clearDone.err = st.err := rfl
@[simp] theorem Status.clearDone_ecode (st : Status) : st.clearDone.ecode = st.ecode := rfl

@[simp] theorem Status.accept_done (st : Status) : st.accept.done = true := rfl
@[simp] theorem Status.accept_ok (st : Status) : st.accept.ok = true := rfl
@[simp] theorem Status.accept_bad (st : Status) : st.accept.bad = false := rfl
@[simp] theorem Status.accept_err (st : Status) : st.accept.err = st.err := rfl
@[simp] theorem Status.accept_ecode (st : Status) : st.accept.ecode = st.ecode := rfl

@[simp] theorem Status.reject_done (st : Status) : st.reject.done = true := rfl
@[simp] theorem Status.reject_ok (st : Status) : st.reject.ok = false := rfl
@[simp] theorem Status.reject_bad (st : Status) : st.reject.bad = true := rfl
@[simp] theorem Status.reject_err (st : Status) : st.reject.err = st.err := rfl
@[simp] theorem Status.reject_ecode (st : Status) : st.reject.ecode = st.ecode := rfl

@[simp] theorem Status.latch_done (st : Status) (c : Code) : (st.latch c).done = st.done := rfl
@[simp] theorem Status.latch_ok (st : Status) (c : Code) : (st.latch c).ok = st.ok := rfl
@[simp] theorem Status.latch_bad (st : Status) (c : Code) : (st.latch c).bad = st.bad := rfl
@[simp] theorem Status.latch_err (st : Status) (c : Code) : (st.latch c).err = true := rfl
@[simp] theorem Status.latch_ecode (st : Status) (c : Code) :
    (st.latch c).ecode = if st.err then st.ecode else c.bits := rfl

@[simp] theorem Status.clearError_done (st : Status) : st.clearError.done = st.done := rfl
@[simp] theorem Status.clearError_ok (st : Status) : st.clearError.ok = st.ok := rfl
@[simp] theorem Status.clearError_bad (st : Status) : st.clearError.bad = st.bad := rfl
@[simp] theorem Status.clearError_err (st : Status) : st.clearError.err = false := rfl
@[simp] theorem Status.clearError_ecode (st : Status) : st.clearError.ecode = 0 := rfl

end Sys2Proof.Machine
end

