-- ==== Sys2Proof/Laws/Memory.lean ====
section
/-! SUPPORT. The laws of the packet buffer: read after write, the canonical form kept by every memory operation, the
valid bits, and what a loaded buffer reads. -/

namespace Sys2Proof.Machine

@[simp] theorem Memory.read_nil (a : Nat) : Memory.read [] a = none := rfl

theorem Memory.read_cons (k : Nat) (v : Byte) (m : Memory) (a : Nat) :
    Memory.read ((k, v) :: m) a = if a = k then some v else Memory.read m a := rfl

@[simp] theorem Memory.read_empty (a : Nat) : Memory.empty.read a = none := rfl

/-- A cell read after it was written holds the byte written. -/
@[simp] theorem Memory.read_write_same (m : Memory) (a : Nat) (v : Byte) : (m.write a v).read a = some v := by
  induction m with
  | nil => simp [Memory.write, Memory.read]
  | cons c m ih =>
    obtain ⟨k, w⟩ := c
    simp only [Memory.write]
    split
    · simp [Memory.read_cons]
    · split
      · simp [Memory.read_cons]
      · simp [Memory.read_cons, *]

/-- A write leaves every other cell alone. -/
theorem Memory.read_write_other (m : Memory) {a b : Nat} (v : Byte) (h : b ≠ a) :
    (m.write a v).read b = m.read b := by
  induction m with
  | nil => simp [Memory.write, Memory.read, Memory.unlisted, h]
  | cons c m ih =>
    obtain ⟨k, w⟩ := c
    simp only [Memory.write]
    split
    · subst k
      simp [Memory.read_cons, h]
    · split
      · simp [Memory.read_cons, h]
      · simp [Memory.read_cons, ih]

theorem Memory.read_write (m : Memory) (a b : Nat) (v : Byte) :
    (m.write a v).read b = if b = a then some v else m.read b := by
  split
  · subst a
    simp
  · exact Memory.read_write_other m v ‹_›

theorem Memory.risingFrom_mono {lo lo' : Nat} (h : lo' ≤ lo) {m : Memory} (hm : Memory.risingFrom lo m = true) :
    Memory.risingFrom lo' m = true := by
  cases m with
  | nil => rfl
  | cons c m =>
    obtain ⟨k, v⟩ := c
    simp only [Memory.risingFrom, Bool.and_eq_true, decide_eq_true_eq] at hm ⊢
    exact ⟨⟨Nat.le_trans h hm.1.1, hm.1.2⟩, hm.2⟩

theorem Memory.risingFrom_write {lo a : Nat} (v : Byte) (hlo : lo ≤ a) (ha : a < 10) {m : Memory}
    (hm : Memory.risingFrom lo m = true) : Memory.risingFrom lo (m.write a v) = true := by
  induction m generalizing lo with
  | nil =>
    simp only [Memory.write, Memory.risingFrom, Bool.and_eq_true, decide_eq_true_eq]
    exact ⟨⟨hlo, ha⟩, trivial⟩
  | cons c m ih =>
    obtain ⟨k, w⟩ := c
    simp only [Memory.risingFrom, Bool.and_eq_true, decide_eq_true_eq] at hm
    simp only [Memory.write]
    split
    · subst a
      simp only [Memory.risingFrom, Bool.and_eq_true, decide_eq_true_eq]
      exact hm
    · split
      · simp only [Memory.risingFrom, Bool.and_eq_true, decide_eq_true_eq]
        exact ⟨⟨hlo, ha⟩, ⟨by omega, hm.1.2⟩, hm.2⟩
      · simp only [Memory.risingFrom, Bool.and_eq_true, decide_eq_true_eq]
        exact ⟨hm.1, ih (by omega) hm.2⟩

/-- A write to an index of the packet keeps the canonical form. -/
theorem Memory.wf_write {m : Memory} {a : Nat} (v : Byte) (ha : a < 10) (hm : m.wf = true) :
    (m.write a v).wf = true :=
  Memory.risingFrom_write v (Nat.zero_le a) ha hm

theorem Memory.wf_empty : Memory.empty.wf = true := rfl

theorem Memory.wf_ofPacket (q : RawPacket) : (Memory.ofPacket q).wf = true := rfl

theorem Memory.reset_wf : State.reset.pkt.wf = true := rfl

theorem Memory.holds_ofPacket (q : RawPacket) : (Memory.ofPacket q).Holds q := by
  constructor <;> rfl

/-- The buffer holds at most one packet. -/
theorem Memory.Holds.unique {m : Memory} {q q' : RawPacket} (h : m.Holds q) (h' : m.Holds q') : q = q' := by
  cases q
  cases q'
  have := h.b0.symm.trans h'.b0
  have := h.b1.symm.trans h'.b1
  have := h.b2.symm.trans h'.b2
  have := h.b3.symm.trans h'.b3
  have := h.b4.symm.trans h'.b4
  have := h.b5.symm.trans h'.b5
  have := h.b6.symm.trans h'.b6
  have := h.b7.symm.trans h'.b7
  have := h.b8.symm.trans h'.b8
  have := h.b9.symm.trans h'.b9
  simp_all

/-- A loaded buffer has all ten valid bits set. -/
theorem Memory.Holds.pv {m : Memory} {q : RawPacket} (h : m.Holds q) : m.pv = 0b1111111111#10 := by
  simp [Memory.pv, Memory.pvFrom, Memory.valid, h.b0, h.b1, h.b2, h.b3, h.b4, h.b5, h.b6, h.b7, h.b8, h.b9]

theorem Memory.pvFrom_testBit (m : Memory) (base n i : Nat) :
    (m.pvFrom base n).testBit i = (decide (i < n) && m.valid (base + i)) := by
  induction n generalizing base i with
  | zero => simp [Memory.pvFrom]
  | succ n ih =>
    cases i with
    | zero =>
      simp only [Memory.pvFrom, Nat.testBit_zero]
      cases m.valid base <;> simp
    | succ i =>
      have hdiv : ((m.valid base).toNat + 2 * m.pvFrom (base + 1) n) / 2 = m.pvFrom (base + 1) n := by
        cases m.valid base
        · simp
        · simp only [Bool.toNat_true]
          omega
      rw [Memory.pvFrom, Nat.testBit_succ, hdiv, ih]
      have : base + 1 + i = base + (i + 1) := by omega
      simp [this]

/-- Bit `i` of `PV` is the valid bit of cell `i` (10_state.md R13). -/
theorem Memory.pv_getLsbD (m : Memory) (i : Nat) : m.pv.getLsbD i = (decide (i < 10) && m.valid i) := by
  simp [Memory.pv, BitVec.getLsbD_ofNat, Memory.pvFrom_testBit]

/-- A buffer with all ten valid bits set holds a packet. -/
theorem Memory.exists_holds_of_valid {m : Memory} (h : ∀ i < 10, m.valid i = true) : ∃ q, m.Holds q := by
  have hv : ∀ i < 10, ∃ v, m.read i = some v := fun i hi => Option.isSome_iff_exists.mp (h i hi)
  obtain ⟨b0, h0⟩ := hv 0 (by omega)
  obtain ⟨b1, h1⟩ := hv 1 (by omega)
  obtain ⟨b2, h2⟩ := hv 2 (by omega)
  obtain ⟨b3, h3⟩ := hv 3 (by omega)
  obtain ⟨b4, h4⟩ := hv 4 (by omega)
  obtain ⟨b5, h5⟩ := hv 5 (by omega)
  obtain ⟨b6, h6⟩ := hv 6 (by omega)
  obtain ⟨b7, h7⟩ := hv 7 (by omega)
  obtain ⟨b8, h8⟩ := hv 8 (by omega)
  obtain ⟨b9, h9⟩ := hv 9 (by omega)
  exact ⟨{ b0, b1, b2, b3, b4, b5, b6, b7, b8, b9 }, ⟨h0, h1, h2, h3, h4, h5, h6, h7, h8, h9⟩⟩

end Sys2Proof.Machine
end

