-- ==== Sys2Proof/Laws/Ops.lean ====
section
/-! SUPPORT. One lemma for each shared operation that says once everything it can do: operand checks, reads of packet
bytes, raising, ending an operation, delivering a decode, taking the next event. Later proofs cite these. -/

namespace Sys2Proof.Machine

theorem byteIndex_legal {i : Byte} (h : i.toNat < 10) : byteIndex i = .ok i.toNat := by
  simp [byteIndex, h]

theorem byteIndex_illegal {i : Byte} (h : ¬ i.toNat < 10) : byteIndex i = .error (.index i) := by
  simp [byteIndex, h]

theorem registerNumber_legal {r : Byte} (h : r.toNat ≤ 9) : registerNumber r = .ok r.toNat := by
  simp [registerNumber, h]

theorem registerNumber_illegal {r : Byte} (h : ¬ r.toNat ≤ 9) : registerNumber r = .error (.index r) := by
  simp [registerNumber, h]

theorem checksumRange_legal {v : Byte} (h : 1 ≤ v.toNat ∧ v.toNat ≤ 10) : checksumRange v = .ok (v.setWidth 4) := by
  have h' : ¬ (v.toNat < 1 ∨ 10 < v.toNat) := by omega
  simp only [checksumRange, h', if_false]

theorem checksumRange_illegal {v : Byte} (h : ¬ (1 ≤ v.toNat ∧ v.toNat ≤ 10)) : checksumRange v = .error (.cfg v) := by
  have h' : v.toNat < 1 ∨ 10 < v.toNat := by omega
  simp only [checksumRange, h', if_true]

/-- A range that passes the check is stored as it is. -/
theorem checksumRange_toNat {v : Byte} {n : BitVec 4} (h : checksumRange v = .ok n) :
    n.toNat = v.toNat ∧ 1 ≤ v.toNat ∧ v.toNat ≤ 10 := by
  by_cases hv : 1 ≤ v.toNat ∧ v.toNat ≤ 10
  · rw [checksumRange_legal hv] at h
    cases h
    refine ⟨?_, hv⟩
    simp only [BitVec.toNat_setWidth]
    omega
  · rw [checksumRange_illegal hv] at h
    cases h

theorem State.memRead_value {s : State} {i v : Byte} (hi : i.toNat < 10) (h : s.pkt.read i.toNat = some v) :
    s.memRead i = .ok v := by
  simp [State.memRead, byteIndex_legal hi, h]

theorem State.memRead_unwritten {s : State} {i : Byte} (hi : i.toNat < 10) (h : s.pkt.read i.toNat = none) :
    s.memRead i = .error (.uninit i) := by
  simp [State.memRead, byteIndex_legal hi, h]

theorem State.memRead_illegal {s : State} {i : Byte} (hi : ¬ i.toNat < 10) : s.memRead i = .error (.index i) := by
  simp [State.memRead, byteIndex_illegal hi]

/-- What a read of a packet byte can do (20_memory.md R33). -/
theorem State.memRead_cases (s : State) (i : Byte) :
    (i.toNat < 10 ∧ ∃ v, s.pkt.read i.toNat = some v ∧ s.memRead i = .ok v) ∨
    (i.toNat < 10 ∧ s.pkt.read i.toNat = none ∧ s.memRead i = .error (.uninit i)) ∨
    (¬ i.toNat < 10 ∧ s.memRead i = .error (.index i)) := by
  by_cases hi : i.toNat < 10
  · cases h : s.pkt.read i.toNat with
    | none => exact .inr (.inl ⟨hi, rfl, State.memRead_unwritten hi h⟩)
    | some v => exact .inl ⟨hi, v, rfl, State.memRead_value hi h⟩
  · exact .inr (.inr ⟨hi, State.memRead_illegal hi⟩)

/-- A read depends on the packet buffer alone. -/
theorem State.memRead_congr {s t : State} (h : ∀ a, s.pkt.read a = t.pkt.read a) (i : Byte) :
    s.memRead i = t.memRead i := by
  simp [State.memRead, h]

/-- What a write of a packet byte can do (20_memory.md R34). -/
theorem State.memWrite_cases (s : State) (i v : Byte) :
    (i.toNat < 10 ∧ s.memWrite i v = .ok { s with pkt := s.pkt.write i.toNat v }) ∨
    (¬ i.toNat < 10 ∧ s.memWrite i v = .error (.index i)) := by
  by_cases hi : i.toNat < 10
  · exact .inl ⟨hi, by simp [State.memWrite, byteIndex_legal hi]⟩
  · exact .inr ⟨hi, by simp [State.memWrite, byteIndex_illegal hi]⟩

theorem bind_eq_ok {α β : Type} {x : Except Err α} {f : α → Except Err β} {b : β} :
    (x >>= f) = .ok b ↔ ∃ a, x = .ok a ∧ f a = .ok b := by
  cases x <;> simp [bind, Except.bind]

theorem bind_eq_error {α β : Type} {x : Except Err α} {f : α → Except Err β} {e : Err} :
    (x >>= f) = .error e ↔ x = .error e ∨ ∃ a, x = .ok a ∧ f a = .error e := by
  cases x <;> simp [bind, Except.bind]

theorem State.memRead_ok_read {s : State} {i v : Byte} (h : s.memRead i = .ok v) : s.pkt.read i.toNat = some v := by
  rcases s.memRead_cases i with ⟨_, w, hw, hv⟩ | ⟨_, _, hv⟩ | ⟨_, hv⟩ <;> rw [hv] at h <;> cases h
  exact hw

/-- Ten reads of a loaded buffer give the packet it holds. -/
theorem State.memReadPacket_holds {s : State} {q : RawPacket} (h : s.pkt.Holds q) : s.memReadPacket = .ok q := by
  have r0 : s.memRead 0 = .ok q.b0 := State.memRead_value (by decide) h.b0
  have r1 : s.memRead 1 = .ok q.b1 := State.memRead_value (by decide) h.b1
  have r2 : s.memRead 2 = .ok q.b2 := State.memRead_value (by decide) h.b2
  have r3 : s.memRead 3 = .ok q.b3 := State.memRead_value (by decide) h.b3
  have r4 : s.memRead 4 = .ok q.b4 := State.memRead_value (by decide) h.b4
  have r5 : s.memRead 5 = .ok q.b5 := State.memRead_value (by decide) h.b5
  have r6 : s.memRead 6 = .ok q.b6 := State.memRead_value (by decide) h.b6
  have r7 : s.memRead 7 = .ok q.b7 := State.memRead_value (by decide) h.b7
  have r8 : s.memRead 8 = .ok q.b8 := State.memRead_value (by decide) h.b8
  have r9 : s.memRead 9 = .ok q.b9 := State.memRead_value (by decide) h.b9
  simp only [State.memReadPacket, r0, r1, r2, r3, r4, r5, r6, r7, r8, r9]
  rfl

theorem State.memRead_small_error {s : State} {i : Byte} {e : Err} (hi : i.toNat < 10) (h : s.memRead i = .error e) :
    e = .uninit i ∧ s.pkt.read i.toNat = none := by
  rcases s.memRead_cases i with ⟨_, v, _, hv⟩ | ⟨_, hn, hv⟩ | ⟨hn, _⟩
  · rw [hv] at h
    cases h
  · rw [hv] at h
    cases h
    exact ⟨rfl, hn⟩
  · exact absurd hi hn

/-- Ten reads that all answer read a loaded buffer. -/
theorem State.holds_of_memReadPacket {s : State} {q : RawPacket} (h : s.memReadPacket = .ok q) : s.pkt.Holds q := by
  simp only [State.memReadPacket, bind_eq_ok, pure, Except.pure, Except.ok.injEq] at h
  obtain ⟨b0, h0, b1, h1, b2, h2, b3, h3, b4, h4, b5, h5, b6, h6, b7, h7, b8, h8, b9, h9, rfl⟩ := h
  exact ⟨State.memRead_ok_read h0, State.memRead_ok_read h1, State.memRead_ok_read h2, State.memRead_ok_read h3,
    State.memRead_ok_read h4, State.memRead_ok_read h5, State.memRead_ok_read h6, State.memRead_ok_read h7,
    State.memRead_ok_read h8, State.memRead_ok_read h9⟩

/-- The only error of the ten reads is `E_UNINIT`. -/
theorem State.memReadPacket_error {s : State} {e : Err} (h : s.memReadPacket = .error e) : ∃ i, e = .uninit i := by
  simp only [State.memReadPacket, bind_eq_error, pure, Except.pure, reduceCtorEq, and_false, exists_false,
    or_false] at h
  rcases h with h | ⟨_, _, h | ⟨_, _, h | ⟨_, _, h | ⟨_, _, h | ⟨_, _, h | ⟨_, _, h | ⟨_, _, h | ⟨_, _, h | ⟨_, _, h⟩⟩⟩⟩⟩⟩⟩⟩⟩ <;>
    exact ⟨_, (State.memRead_small_error (by decide) h).1⟩

/-- What the ten reads of `PDEC` can do (42_decode.md R95): the packet of a loaded buffer, or `E_UNINIT`. -/
theorem State.memReadPacket_cases (s : State) :
    (∃ q, s.pkt.Holds q ∧ s.memReadPacket = .ok q) ∨
    ((∀ q, ¬ s.pkt.Holds q) ∧ ∃ i, s.memReadPacket = .error (.uninit i)) := by
  cases h : s.memReadPacket with
  | ok q => exact .inl ⟨q, State.holds_of_memReadPacket h, rfl⟩
  | error e =>
    obtain ⟨i, rfl⟩ := State.memReadPacket_error h
    refine .inr ⟨fun q hq => ?_, i, rfl⟩
    rw [State.memReadPacket_holds hq] at h
    cases h

/-- A buffer with an unwritten byte holds no packet. -/
theorem Memory.not_holds_of_unwritten {m : Memory} {i : Nat} (hi : i < 10) (h : m.read i = none) (q : RawPacket) :
    ¬ m.Holds q := by
  intro hq
  match i, hi with
  | 0, _ => simp [hq.b0] at h
  | 1, _ => simp [hq.b1] at h
  | 2, _ => simp [hq.b2] at h
  | 3, _ => simp [hq.b3] at h
  | 4, _ => simp [hq.b4] at h
  | 5, _ => simp [hq.b5] at h
  | 6, _ => simp [hq.b6] at h
  | 7, _ => simp [hq.b7] at h
  | 8, _ => simp [hq.b8] at h
  | 9, _ => simp [hq.b9] at h
  | n + 10, hn => omega

/-- Raising an error leaves what R138 says and nothing else. -/
theorem State.raise_eq_afterError (s : State) (e : Err) : s.raise e = s.afterError e.code := rfl

theorem State.respond_ok_eq_afterAnswer (s : State) (v : Word16) : s.respond .ok v = s.afterAnswer v := rfl

theorem State.invalidate_eq_withoutResults (s : State) : s.invalidate = s.withoutResults := rfl

@[simp] theorem State.attempt_ok (s t : State) : s.attempt (.ok t) = .next t := rfl

@[simp] theorem State.attempt_error (s : State) (e : Err) : s.attempt (.error e) = .next (s.afterError e.code) := rfl

/-- How an operation that may raise ends: in the state it made, or in the error's on the state it began with. -/
theorem State.attempt_next {s t : State} {r : Except Err State} (h : s.attempt r = .next t) :
    r = .ok t ∨ ∃ e, r = .error e ∧ t = s.afterError e.code := by
  cases r with
  | ok u =>
    rw [State.attempt_ok] at h
    cases h
    exact .inl rfl
  | error e =>
    rw [State.attempt_error] at h
    cases h
    exact .inr ⟨e, rfl, rfl⟩

/-- Every error's code is one R135 calls an error. -/
@[simp] theorem Err.code_isError (e : Err) : e.code.isError = true := by
  cases e <;> rfl

theorem Code.bits_of_isError {c : Code} (h : c.isError = true) : c.bits ∈ [2#4, 3#4, 4#4, 5#4, 6#4] := by
  cases c <;> first | (cases h; done) | decide

theorem State.deliver_accepted (s : State) (tag : BitVec 4) (k : Kind) (v : Word16) (w d : Byte) :
    s.deliver (.accepted tag k v w d) = s.afterAccept tag k.bits v w d := rfl

theorem State.deliver_rejected (s : State) (tag : BitVec 4) (crc : Word16) :
    s.deliver (.rejected tag crc) = s.afterReject tag crc := rfl

theorem accepted_eq_true {q : RawPacket} {n : Nat} : accepted q n = true ↔ checksum q n = 0 := by
  simp [accepted]

theorem decodeAs_accepted {tag : BitVec 4} {k : Kind} {q : RawPacket} {n : Nat} (h : checksum q n = 0) :
    decodeAs tag k q n = .accepted tag k (fieldValue k q.b3 q.b4) q.b1 q.b2 := by
  simp [decodeAs, accepted_eq_true.mpr h, windSpeedRaw, windDirRaw]

theorem decodeAs_rejected {tag : BitVec 4} {k : Kind} {q : RawPacket} {n : Nat} (h : checksum q n ≠ 0) :
    decodeAs tag k q n = .rejected tag (checksum q n) := by
  have hf : accepted q n = false := by
    simpa [accepted] using h
  simp [decodeAs, hf]

/-- What an accepting packet row leaves. -/
theorem State.runPacket_accepted {s : State} {tag : BitVec 4} {k : Kind} {p : PacketFields}
    (h : checksum (p.raw tag) s.len.toNat = 0) :
    s.runPacket tag k p = .next (s.afterAccept tag k.bits (fieldValue k p.b3 p.b4) p.ws p.wd) := by
  simp only [State.runPacket, decodeAs_accepted h]
  rfl

/-- What a rejecting packet row leaves. -/
theorem State.runPacket_rejected {s : State} {tag : BitVec 4} {k : Kind} {p : PacketFields}
    (h : checksum (p.raw tag) s.len.toNat ≠ 0) :
    s.runPacket tag k p = .next (s.afterReject tag (checksum (p.raw tag) s.len.toNat)) := by
  simp only [State.runPacket, decodeAs_rejected h]
  rfl

@[simp] theorem State.nextEvent_nil {s : State} (h : s.pending = []) : s.nextEvent = none := by
  simp [State.nextEvent, h]

theorem State.nextEvent_cons {s : State} {e : HostEvent} {rest : List HostEvent} (h : s.pending = e :: rest) :
    s.nextEvent = some (e, { s with pending := rest }) := by
  simp [State.nextEvent, h]

/-- A request issued to an idle block is the next event. -/
theorem State.nextEvent_issue_idle {s : State} (h : s.pending = []) (w : RequestWord) :
    (s.issue w).nextEvent = some (.request w, s) := by
  obtain ⟨pkt, acc, len, status, results, pending, responses⟩ := s
  subst h
  rfl

/-- A request issued to a block with events not yet taken leaves the next event what it was (00_scope.md R9). -/
theorem State.nextEvent_issue_cons {s : State} {e : HostEvent} {rest : List HostEvent} (h : s.pending = e :: rest)
    (w : RequestWord) : (s.issue w).nextEvent = some (e, State.issue { s with pending := rest } w) := by
  simp [State.nextEvent, State.issue, h]

@[simp] theorem State.nextEvent_placeRequest (s : State) (w : RequestWord) :
    (s.placeRequest w).nextEvent = some (.request w, s) := rfl

end Sys2Proof.Machine
end

