-- ==== Sys2Proof/Laws/Crc.lean ====
section
/-! SUPPORT. The first laws of the CRC functions (41_crc.md R70 to R72), and the parameters of 00_scope.md R6 that say
what the CRC does not do. -/

namespace Sys2Proof.Machine

/-- The empty sequence leaves the initial value (R72). -/
@[simp] theorem crc16_nil : crc16 [] = 0 := rfl

/-- One byte more is one `crc16_byte` more (R72). -/
theorem crc16_concat (bytes : List Byte) (d : Byte) : crc16 (bytes ++ [d]) = crc16Byte (crc16 bytes) d := by
  simp [crc16]

/-- Bytes after a prefix continue from the prefix's accumulator. -/
theorem crc16_append (as bs : List Byte) : crc16 (as ++ bs) = bs.foldl crc16Byte (crc16 as) := by
  simp [crc16]

@[simp] theorem crc16Rounds_zero (x : Word16) : crc16Rounds 0 x = x := rfl

@[simp] theorem crc16Rounds_succ (n : Nat) (x : Word16) : crc16Rounds (n + 1) x = crc16Rounds n (crc16Bit x) := rfl

/-- Rounds one after another. -/
theorem crc16Rounds_add (m n : Nat) (x : Word16) : crc16Rounds (m + n) x = crc16Rounds n (crc16Rounds m x) := by
  induction m generalizing x with
  | zero => simp
  | succ m ih => rw [Nat.succ_add, crc16Rounds_succ, crc16Rounds_succ, ih]

/-- Zero stays zero under a round (R74). -/
@[simp] theorem crc16Bit_zero : crc16Bit 0#16 = 0#16 := by decide

/-- Zero stays zero under any number of rounds. -/
@[simp] theorem crc16Rounds_of_zero (n : Nat) : crc16Rounds n 0#16 = 0#16 := by
  induction n with
  | zero => rfl
  | succ n ih => simp [ih]

/-- The widths, the final exclusive or and the reflections of R6: the accumulator has `CRC_WIDTH` bits, nothing is
added at the end, nothing is reflected. -/
theorem crc_parameters (x : Word16) :
    config.crcWidth = 16 ∧ x ^^^ config.xorOut = x ∧ config.refIn = false ∧ config.refOut = false := by
  refine ⟨rfl, ?_, rfl, rfl⟩
  exact BitVec.xor_zero

/-- The byte indices of R6: wind speed, wind direction and the two field bytes of a packet. -/
theorem packet_byte_indices (q : RawPacket) :
    (packetBytes q)[config.byteWindSpeed]? = some (windSpeedRaw q) ∧
    (packetBytes q)[config.byteWindDir]? = some (windDirRaw q) ∧
    (packetBytes q)[config.byteFieldA]? = some q.b3 ∧ (packetBytes q)[config.byteFieldB]? = some q.b4 ∧
    (packetBytes q).length = config.pktLen :=
  ⟨rfl, rfl, rfl, rfl, rfl⟩

end Sys2Proof.Machine
end

