-- ==== Sys2Proof/Laws/Exec.lean ====
section
/-! SUPPORT. What an instruction can do, once: an error, an answer that changes no state, or one of the eight changes the
spec gives. A proof about every instruction splits on these ten cases and never unfolds a meaning. -/

namespace Sys2Proof.Machine

/-- The instructions that can change the block's state otherwise than through an error. -/
def changesState : Instr → Bool
  | .pclr | .pstb _ _ | .cinit | .cbyte _ | .pdec | .wrc _ _ | .eclr => true
  | i => decide (i.format = .PKT)

/-- The states an instruction can leave when it runs in `s`. -/
inductive Effect (i : Instr) (s : State) : State → Prop where
  /-- an error (60_exceptions.md R138) -/
  | error (c : Code) (hc : c.isError = true) : Effect i s (s.afterError c)
  /-- an answer and no change -/
  | answer (v : Word16) (hi : changesState i = false) : Effect i s (s.afterAnswer v)
  /-- `PCLR` (40_packet_buffer.md R65) -/
  | pclr (hi : i = .pclr) : Effect i s (State.afterAnswer { s.withoutResults with pkt := [] } 0)
  /-- `PSTB` (40_packet_buffer.md R66) -/
  | pstb (j d : Byte) (hi : i = .pstb j d) (hj : j.toNat < 10) :
      Effect i s (State.afterAnswer { s.withoutResults with pkt := s.pkt.write j.toNat d } 0)
  /-- `CINIT` (41_crc.md R75) -/
  | cinit (hi : i = .cinit) : Effect i s (State.afterAnswer { s with acc := 0 } 0)
  /-- `CBYTE` (41_crc.md R76) -/
  | cbyte (d : Byte) (hi : i = .cbyte d) :
      Effect i s (State.afterAnswer { s with acc := crc16Byte s.acc d } (crc16Byte s.acc d))
  /-- `WRC` (44_system.md R111) -/
  | wrc (v : Byte) (hi : i = .wrc 1 v) (hv : 1 ≤ v.toNat ∧ v.toNat ≤ 10) :
      Effect i s (State.afterAnswer { s.withoutResults with len := v.setWidth 4 } (v.setWidth 16))
  /-- `ECLR` (44_system.md R112) -/
  | eclr (hi : i = .eclr) : Effect i s (State.afterAnswer { s with status := s.status.clearError } 0)
  /-- `PDEC` on a loaded buffer, or a packet row, whose packet is accepted (42_decode.md R95) -/
  | accept (tag : BitVec 4) (k : Kind) (q : RawPacket)
      (hi : (i = .pdec ∧ s.pkt.Holds q ∧ tag = tagOf q.b0 ∧ k = kindOf (tagOf q.b0)) ∨ i.format = .PKT)
      (hc : checksum q s.len.toNat = 0) :
      Effect i s (s.afterAccept tag k.bits (fieldValue k q.b3 q.b4) q.b1 q.b2)
  /-- the same, whose packet is rejected (42_decode.md R95) -/
  | reject (tag : BitVec 4) (q : RawPacket)
      (hi : (i = .pdec ∧ s.pkt.Holds q ∧ tag = tagOf q.b0) ∨ i.format = .PKT)
      (hc : checksum q s.len.toNat ≠ 0) :
      Effect i s (s.afterReject tag (checksum q s.len.toNat))

theorem Effect.ofPacketRow {i : Instr} {s t : State} {tag : BitVec 4} {k : Kind} {p : PacketFields}
    (hi : i.format = .PKT) (h : s.runPacket tag k p = .next t) : Effect i s t := by
  by_cases hc : checksum (p.raw tag) s.len.toNat = 0
  · rw [State.runPacket_accepted hc] at h
    cases h
    exact .accept tag k (p.raw tag) (.inr hi) hc
  · rw [State.runPacket_rejected hc] at h
    cases h
    exact .reject tag (p.raw tag) (.inr hi) hc

/-- How an operation that only answers, but may raise, ends. -/
theorem Effect.ofRead {α : Type} {i : Instr} {s t : State} {x : Except Err α} {f : α → Word16}
    (hi : changesState i = false) (h : s.attempt (x >>= fun a => pure (s.respond .ok (f a))) = .next t) :
    Effect i s t := by
  cases x with
  | ok a =>
    cases h
    exact .answer (f a) hi
  | error e =>
    cases h
    exact .error e.code (Err.code_isError e)

/-- What an instruction can do. -/
theorem exec_effect {i : Instr} {s t : State} (h : exec i s = .next t) : Effect i s t := by
  cases i
  case pclr =>
    cases h
    exact .pclr rfl
  case pstb j d =>
    simp only [exec, execPstb] at h
    rcases s.memWrite_cases j d with ⟨hj, hw⟩ | ⟨hj, hw⟩ <;> rw [hw] at h <;> cases h
    · exact .pstb j d rfl hj
    · exact .error .eIndex rfl
  case pldb j => exact .ofRead rfl h
  case cinit =>
    cases h
    exact .cinit rfl
  case cbyte d =>
    cases h
    exact .cbyte d rfl
  case crd =>
    cases h
    exact .answer s.acc rfl
  case pcrc => exact .ofRead rfl h
  case ptag => exact .ofRead rfl h
  case pdec =>
    simp only [exec, execPdec] at h
    rcases s.memReadPacket_cases with ⟨q, hq, hr⟩ | ⟨_, j, hr⟩ <;> rw [hr] at h
    · by_cases hc : checksum q s.len.toNat = 0
      · have ht : s.deliver (decodeRawPacket q s.len.toNat) = t := by injection h
        rw [decodeRawPacket, decodeAs_accepted hc, State.deliver_accepted] at ht
        subst ht
        exact .accept _ _ q (.inl ⟨rfl, hq, rfl, rfl⟩) hc
      · have ht : s.deliver (decodeRawPacket q s.len.toNat) = t := by injection h
        rw [decodeRawPacket, decodeAs_rejected hc, State.deliver_rejected] at ht
        subst ht
        exact .reject _ q (.inl ⟨rfl, hq, rfl⟩) hc
    · cases h
      exact .error .eUninit rfl
  case rev8 d =>
    cases h
    exact .answer _ rfl
  case cmb12 a b =>
    cases h
    exact .answer _ rfl
  case cmb12h a b =>
    cases h
    exact .answer _ rfl
  case cmb16 a b =>
    cases h
    exact .answer _ rfl
  case msk7 a =>
    cases h
    exact .answer _ rfl
  case rdr r => exact .ofRead (f := fun v => v) rfl h
  case wrc r v =>
    simp only [exec, execWrc] at h
    by_cases hr : r = 1
    · subst hr
      by_cases hv : 1 ≤ v.toNat ∧ v.toNat ≤ 10
      · rw [checksumRange_legal hv] at h
        cases h
        exact .wrc v rfl hv
      · rw [checksumRange_illegal hv] at h
        cases h
        exact .error .eCfg rfl
    · simp only [writableRegister, hr, if_false] at h
      cases h
      exact .error .eIndex rfl
  case eclr =>
    cases h
    exact .eclr rfl
  all_goals exact .ofPacketRow rfl h

/-- How an operation that may raise ends is always a next state. -/
theorem State.attempt_answers (s : State) (r : Except Err State) : ∃ t, s.attempt r = .next t := by
  cases r <;> exact ⟨_, rfl⟩

/-- Every instruction answers in every state (00_scope.md R9). -/
theorem exec_answers (i : Instr) (s : State) : ∃ t, exec i s = .next t := by
  cases i <;> first | exact State.attempt_answers _ _ | exact ⟨_, rfl⟩

end Sys2Proof.Machine
end

