-- ==== Sys2Proof/Laws/Words.lean ====
section
/-! SUPPORT. The words of 30_encoding.md R45 and R51 as numbers, and the fields cut out of them, so that a statement
about an encoding becomes one about numbers. -/

namespace Sys2Proof

/-- A concatenation as a number. -/
theorem toNat_append_add {n m : Nat} (x : BitVec n) (y : BitVec m) : (x ++ y).toNat = x.toNat * 2 ^ m + y.toNat := by
  rw [BitVec.toNat_append, ← Nat.shiftLeft_add_eq_or_of_lt y.isLt, Nat.shiftLeft_eq]

/-- A request word as a number (R45). -/
theorem requestWord_toNat (op a b : Byte) :
    (requestWord op a b).toNat = op.toNat * 65536 + a.toNat * 256 + b.toNat := by
  have h₁ := toNat_append_add op a
  have h₂ := toNat_append_add (op ++ a) b
  rw [h₁] at h₂
  exact h₂.trans (by omega)

/-- A packet word as a number (R51). -/
theorem packetWord_toNat (tag : BitVec 4) (p : PacketFields) :
    (packetWord tag p).toNat = tag.toNat * 2 ^ 76 + p.x0.toNat * 2 ^ 72 + p.ws.toNat * 2 ^ 64 + p.wd.toNat * 2 ^ 56 +
      p.b3.toNat * 2 ^ 48 + p.b4.toNat * 2 ^ 40 + p.x5.toNat * 2 ^ 16 + p.ck.toNat := by
  have h₁ := toNat_append_add tag p.x0
  have h₂ := toNat_append_add (tag ++ p.x0) p.ws
  have h₃ := toNat_append_add (tag ++ p.x0 ++ p.ws) p.wd
  have h₄ := toNat_append_add (tag ++ p.x0 ++ p.ws ++ p.wd) p.b3
  have h₅ := toNat_append_add (tag ++ p.x0 ++ p.ws ++ p.wd ++ p.b3) p.b4
  have h₆ := toNat_append_add (tag ++ p.x0 ++ p.ws ++ p.wd ++ p.b3 ++ p.b4) p.x5
  have h₇ := toNat_append_add (tag ++ p.x0 ++ p.ws ++ p.wd ++ p.b3 ++ p.b4 ++ p.x5) p.ck
  rw [h₆, h₅, h₄, h₃, h₂, h₁] at h₇
  exact h₇.trans (by omega)

/-- A field cut out of a word as a number. -/
theorem extract_toNat {n : Nat} (x : BitVec n) (start len : Nat) :
    (x.extractLsb' start len).toNat = x.toNat / 2 ^ start % 2 ^ len := by
  rw [BitVec.extractLsb'_toNat, Nat.shiftRight_eq_div_pow]

end Sys2Proof
end

