-- ==== Sys2Proof/Laws/PerInstr.lean ====
section
/-! SUPPORT. The per-instruction family `OpcodeRow`: the encoding of an instruction has, under its row's mask, exactly
its row's match value of spec/opcode_table.json. -/

namespace Sys2Proof.Laws.OpcodeRow

/-- The word of an instruction under a mask of its own width. -/
def maskedWord (i : Instr) (mask : Nat) : Nat :=
  match encode i with
  | .request w => (w &&& BitVec.ofNat 24 mask).toNat
  | .packet P => (P &&& BitVec.ofNat 80 mask).toNat

/-- The `mask` and `match` columns of the opcode table, row by row. -/
def tableRow : Instr → Nat × Nat
  | .pclr => (0xFFFFFF, 0x100000)
  | .pstb _ _ => (0xFF0000, 0x110000)
  | .pldb _ => (0xFF00FF, 0x120000)
  | .cinit => (0xFFFFFF, 0x200000)
  | .cbyte _ => (0xFF00FF, 0x210000)
  | .crd => (0xFFFFFF, 0x220000)
  | .pcrc => (0xFFFFFF, 0x230000)
  | .ptag => (0xFFFFFF, 0x300000)
  | .pdec => (0xFFFFFF, 0x310000)
  | .rev8 _ => (0xFF00FF, 0x400000)
  | .cmb12 _ _ => (0xFF0000, 0x410000)
  | .cmb12h _ _ => (0xFF0000, 0x420000)
  | .cmb16 _ _ => (0xFF0000, 0x430000)
  | .msk7 _ => (0xFF00FF, 0x440000)
  | .rdr _ => (0xFF00FF, 0x500000)
  | .wrc _ _ => (0xFF0000, 0x510000)
  | .eclr => (0xFFFFFF, 0x520000)
  | .pktGeneric0 _ => (0xF0000000000000000000, 0x00000000000000000000)
  | .pktGeneric1 _ => (0xF0000000000000000000, 0x10000000000000000000)
  | .pktGeneric2 _ => (0xF0000000000000000000, 0x20000000000000000000)
  | .pktGeneric3 _ => (0xF0000000000000000000, 0x30000000000000000000)
  | .pktGeneric4 _ => (0xF0000000000000000000, 0x40000000000000000000)
  | .pktGeneric5 _ => (0xF0000000000000000000, 0x50000000000000000000)
  | .pktGeneric6 _ => (0xF0000000000000000000, 0x60000000000000000000)
  | .pktGeneric7 _ => (0xF0000000000000000000, 0x70000000000000000000)
  | .pktTemp _ => (0xF0000000000000000000, 0x80000000000000000000)
  | .pktGeneric9 _ => (0xF0000000000000000000, 0x90000000000000000000)
  | .pktHum _ => (0xF0000000000000000000, 0xA0000000000000000000)
  | .pktGenericB _ => (0xF0000000000000000000, 0xB0000000000000000000)
  | .pktGenericC _ => (0xF0000000000000000000, 0xC0000000000000000000)
  | .pktGenericD _ => (0xF0000000000000000000, 0xD0000000000000000000)
  | .pktRain _ => (0xF0000000000000000000, 0xE0000000000000000000)
  | .pktGenericF _ => (0xF0000000000000000000, 0xF0000000000000000000)

/-- The instruction's word matches its row of the opcode table. -/
def Statement (i : Instr) : Prop := maskedWord i (tableRow i).1 = (tableRow i).2

/-- A number under a mask of its `w` highest bits. -/
theorem and_high (x k w : Nat) (h : x < 2 ^ (k + w)) : x &&& ((2 ^ w - 1) * 2 ^ k) = x / 2 ^ k * 2 ^ k := by
  rw [← Nat.shiftLeft_eq, ← Nat.shiftLeft_eq, ← Nat.shiftRight_eq_div_pow]
  apply Nat.eq_of_testBit_eq
  intro i
  simp only [Nat.testBit_and, Nat.testBit_shiftLeft, Nat.testBit_two_pow_sub_one, Nat.testBit_shiftRight]
  by_cases hi : k ≤ i
  · have e : k + (i - k) = i := by omega
    by_cases hw : i - k < w
    · simp [hi, hw, e]
    · have hx : x.testBit i = false :=
        Nat.testBit_lt_two_pow (lt_of_lt_of_le h (Nat.pow_le_pow_right (by omega) (by omega)))
      simp [hw, e, hx]
  · simp [hi]

/-- The operation code is what the mask of an `AB` row keeps. -/
theorem mask_op (op a b : Byte) : (requestWord op a b &&& 0xFF0000#24).toNat = op.toNat * 65536 := by
  have := op.isLt
  have := a.isLt
  have := b.isLt
  have h := and_high (requestWord op a b).toNat 16 8 (requestWord op a b).isLt
  rw [BitVec.toNat_and]
  refine (show _ = _ from h).trans ?_
  rw [requestWord_toNat]
  omega

/-- The operation code is what the mask of an `A` row keeps of a word whose `b` is zero. -/
theorem mask_op_b (op a : Byte) : (requestWord op a 0 &&& 0xFF00FF#24).toNat = op.toNat * 65536 := by
  have := op.isLt
  have := a.isLt
  have e : 0xFF00FF#24 = 0xFF0000#24 ||| 0x0000FF#24 := rfl
  have z : requestWord op a 0 &&& 0x0000FF#24 = 0#24 := by
    apply BitVec.eq_of_toNat_eq
    rw [BitVec.toNat_and]
    refine (Nat.and_two_pow_sub_one_eq_mod (requestWord op a 0).toNat 8).trans ?_
    rw [requestWord_toNat]
    simp
    omega
  have d : requestWord op a 0 &&& 0xFF00FF#24 =
      (requestWord op a 0 &&& 0xFF0000#24) ||| (requestWord op a 0 &&& 0x0000FF#24) := by
    rw [e]
    exact BitVec.and_or_distrib_left ..
  rw [d, z, BitVec.or_zero, mask_op]

/-- The tag is what the mask of a packet row keeps. -/
theorem mask_tag (tag : BitVec 4) (p : PacketFields) :
    (packetWord tag p &&& 0xF0000000000000000000#80).toNat = tag.toNat * 2 ^ 76 := by
  have h := and_high (packetWord tag p).toNat 76 4 (packetWord tag p).isLt
  obtain ⟨x0, ws, wd, b3, b4, x5, ck⟩ := p
  have := tag.isLt
  have := x0.isLt
  have := ws.isLt
  have := wd.isLt
  have := b3.isLt
  have := b4.isLt
  have := x5.isLt
  have := ck.isLt
  rw [BitVec.toNat_and]
  refine (show _ = _ from h).trans ?_
  rw [packetWord_toNat]
  dsimp only
  omega

theorem pclr : Statement .pclr := rfl

theorem cinit : Statement .cinit := rfl

theorem crd : Statement .crd := rfl

theorem pcrc : Statement .pcrc := rfl

theorem ptag : Statement .ptag := rfl

theorem pdec : Statement .pdec := rfl

theorem eclr : Statement .eclr := rfl

theorem pldb (a : Byte) : Statement (.pldb a) := mask_op_b 0x12 a

theorem cbyte (a : Byte) : Statement (.cbyte a) := mask_op_b 0x21 a

theorem rev8 (a : Byte) : Statement (.rev8 a) := mask_op_b 0x40 a

theorem msk7 (a : Byte) : Statement (.msk7 a) := mask_op_b 0x44 a

theorem rdr (a : Byte) : Statement (.rdr a) := mask_op_b 0x50 a

theorem pstb (a b : Byte) : Statement (.pstb a b) := mask_op 0x11 a b

theorem cmb12 (a b : Byte) : Statement (.cmb12 a b) := mask_op 0x41 a b

theorem cmb12h (a b : Byte) : Statement (.cmb12h a b) := mask_op 0x42 a b

theorem cmb16 (a b : Byte) : Statement (.cmb16 a b) := mask_op 0x43 a b

theorem wrc (a b : Byte) : Statement (.wrc a b) := mask_op 0x51 a b

theorem pktGeneric0 (p : PacketFields) : Statement (.pktGeneric0 p) := mask_tag 0x0 p

theorem pktGeneric1 (p : PacketFields) : Statement (.pktGeneric1 p) := mask_tag 0x1 p

theorem pktGeneric2 (p : PacketFields) : Statement (.pktGeneric2 p) := mask_tag 0x2 p

theorem pktGeneric3 (p : PacketFields) : Statement (.pktGeneric3 p) := mask_tag 0x3 p

theorem pktGeneric4 (p : PacketFields) : Statement (.pktGeneric4 p) := mask_tag 0x4 p

theorem pktGeneric5 (p : PacketFields) : Statement (.pktGeneric5 p) := mask_tag 0x5 p

theorem pktGeneric6 (p : PacketFields) : Statement (.pktGeneric6 p) := mask_tag 0x6 p

theorem pktGeneric7 (p : PacketFields) : Statement (.pktGeneric7 p) := mask_tag 0x7 p

theorem pktTemp (p : PacketFields) : Statement (.pktTemp p) := mask_tag 0x8 p

theorem pktGeneric9 (p : PacketFields) : Statement (.pktGeneric9 p) := mask_tag 0x9 p

theorem pktHum (p : PacketFields) : Statement (.pktHum p) := mask_tag 0xA p

theorem pktGenericB (p : PacketFields) : Statement (.pktGenericB p) := mask_tag 0xB p

theorem pktGenericC (p : PacketFields) : Statement (.pktGenericC p) := mask_tag 0xC p

theorem pktGenericD (p : PacketFields) : Statement (.pktGenericD p) := mask_tag 0xD p

theorem pktRain (p : PacketFields) : Statement (.pktRain p) := mask_tag 0xE p

theorem pktGenericF (p : PacketFields) : Statement (.pktGenericF p) := mask_tag 0xF p

end Sys2Proof.Laws.OpcodeRow
end

