-- ==== Sys2Proof/Laws/Step.lean ====
section
/-! SUPPORT. What a step can do, once: nothing issued, a `RESET`, a request that decodes, a request that does not. -/

namespace Sys2Proof.Machine

/-- What a step can do. -/
theorem step_cases (s : State) :
    (s.pending = [] ∧ step s = .next s) ∨
    (∃ rest, s.pending = .reset :: rest ∧
      step s = .next { State.reset with pending := rest, responses := s.responses }) ∨
    (∃ w rest i, s.pending = .request w :: rest ∧ decodeRequest w = .ok i ∧
      step s = exec i { s with pending := rest }) ∨
    (∃ w rest e, s.pending = .request w :: rest ∧ decodeRequest w = .error e ∧
      step s = .next (State.afterError { s with pending := rest } .eIllegal)) := by
  match h : s.pending with
  | [] => exact .inl ⟨rfl, by simp [step, State.nextEvent_nil h, State.idle]⟩
  | .reset :: rest =>
    refine .inr (.inl ⟨rest, rfl, ?_⟩)
    simp only [step, State.nextEvent_cons h]
    rfl
  | .request w :: rest =>
    cases hw : decodeRequest w with
    | ok i =>
      refine .inr (.inr (.inl ⟨w, rest, i, rfl, hw, ?_⟩))
      simp only [step, State.nextEvent_cons h, hw]
    | error e =>
      refine .inr (.inr (.inr ⟨w, rest, e, rfl, hw, ?_⟩))
      simp only [step, State.nextEvent_cons h, hw]
      rfl

end Sys2Proof.Machine
end

