-- ==== Sys2Proof/Tests/Slice0.lean ====
section
/-! SUPPORT. Tests. Words and values are those of 95_test_vectors.md (its vector's name stands at each test) or of the
rule named; a `witness_` theorem shows a state and operands that meet the hypotheses of the obligation it is named for. -/

namespace Sys2Proof.Tests

/- Elaborated on one thread: each kernel evaluation would hold a thread of its own. -/
set_option Elab.async false

open Sys2Proof Sys2Proof.Machine

/-! ### Decoding a word -/

/-- 95 section 2.7. -/
theorem test_decode_pclr : decodeRequest 0x100000#24 = .ok .pclr ∧ encode .pclr = .request 0x100000#24 := by decide

/-- 95 section 2.7. -/
theorem test_decode_pstb : decodeRequest 0x11030C#24 = .ok (.pstb 3 0x0C) ∧ encode (.pstb 3 0x0C) = .request 0x11030C#24 := by decide

/-- 95 section 2.7. -/
theorem test_decode_pldb : decodeRequest 0x120900#24 = .ok (.pldb 9) ∧ encode (.pldb 9) = .request 0x120900#24 := by decide

/-- 95 section 2.7. -/
theorem test_decode_cinit : decodeRequest 0x200000#24 = .ok .cinit ∧ encode .cinit = .request 0x200000#24 := by decide

/-- 95 section 2.7. -/
theorem test_decode_cbyte : decodeRequest 0x213100#24 = .ok (.cbyte 0x31) ∧ encode (.cbyte 0x31) = .request 0x213100#24 := by decide

/-- 95 section 2.7. -/
theorem test_decode_crd : decodeRequest 0x220000#24 = .ok .crd ∧ encode .crd = .request 0x220000#24 := by decide

/-- 95 section 2.7. -/
theorem test_decode_pcrc : decodeRequest 0x230000#24 = .ok .pcrc ∧ encode .pcrc = .request 0x230000#24 := by decide

/-- 95 section 2.7. -/
theorem test_decode_ptag : decodeRequest 0x300000#24 = .ok .ptag ∧ encode .ptag = .request 0x300000#24 := by decide

/-- 95 section 2.7. -/
theorem test_decode_pdec : decodeRequest 0x310000#24 = .ok .pdec ∧ encode .pdec = .request 0x310000#24 := by decide

/-- 95 section 2.7. -/
theorem test_decode_rev8 : decodeRequest 0x40D000#24 = .ok (.rev8 0xD0) ∧ encode (.rev8 0xD0) = .request 0x40D000#24 := by decide

/-- 95 section 2.7. -/
theorem test_decode_cmb12 : decodeRequest 0x41ABCD#24 = .ok (.cmb12 0xAB 0xCD) ∧ encode (.cmb12 0xAB 0xCD) = .request 0x41ABCD#24 := by decide

/-- 95 section 2.7. -/
theorem test_decode_cmb12h : decodeRequest 0x423205#24 = .ok (.cmb12h 0x32 0x05) ∧ encode (.cmb12h 0x32 0x05) = .request 0x423205#24 := by decide

/-- 95 section 2.7. -/
theorem test_decode_cmb16 : decodeRequest 0x430C80#24 = .ok (.cmb16 0x0C 0x80) ∧ encode (.cmb16 0x0C 0x80) = .request 0x430C80#24 := by decide

/-- 95 section 2.7. -/
theorem test_decode_msk7 : decodeRequest 0x448100#24 = .ok (.msk7 0x81) ∧ encode (.msk7 0x81) = .request 0x448100#24 := by decide

/-- 95 section 2.7. -/
theorem test_decode_rdr : decodeRequest 0x500700#24 = .ok (.rdr 7) ∧ encode (.rdr 7) = .request 0x500700#24 := by decide

/-- 95 section 2.7. -/
theorem test_decode_wrc : decodeRequest 0x51010A#24 = .ok (.wrc 1 10) ∧ encode (.wrc 1 10) = .request 0x51010A#24 := by decide

/-- 95 section 2.7. -/
theorem test_decode_eclr : decodeRequest 0x520000#24 = .ok .eclr ∧ encode .eclr = .request 0x520000#24 := by decide

/-- The fields of the packets V-TAG-0 to V-TAG-F but their CRC, which stands in bytes 6 and 7. -/
def tagFields (x5 : BitVec 24) : PacketFields where
  x0 := 0x5
  ws := 0x11
  wd := 0x22
  b3 := 0xAB
  b4 := 0xCD
  x5 := x5
  ck := 0xFFFF

/-- V-TAG-0; the word is R51's. -/
theorem test_decode_pktGeneric0 : decode (.packet 0x051122ABCD001A49FFFF#80) = .ok (.pktGeneric0 (tagFields 0x001A49)) := by decide

/-- V-TAG-1; the word is R51's. -/
theorem test_decode_pktGeneric1 : decode (.packet 0x151122ABCD0000CDFFFF#80) = .ok (.pktGeneric1 (tagFields 0x0000CD)) := by decide

/-- V-TAG-2; the word is R51's. -/
theorem test_decode_pktGeneric2 : decode (.packet 0x251122ABCD002F41FFFF#80) = .ok (.pktGeneric2 (tagFields 0x002F41)) := by decide

/-- V-TAG-3; the word is R51's. -/
theorem test_decode_pktGeneric3 : decode (.packet 0x351122ABCD0035C5FFFF#80) = .ok (.pktGeneric3 (tagFields 0x0035C5)) := by decide

/-- V-TAG-4; the word is R51's. -/
theorem test_decode_pktGeneric4 : decode (.packet 0x451122ABCD007059FFFF#80) = .ok (.pktGeneric4 (tagFields 0x007059)) := by decide

/-- V-TAG-5; the word is R51's. -/
theorem test_decode_pktGeneric5 : decode (.packet 0x551122ABCD006ADDFFFF#80) = .ok (.pktGeneric5 (tagFields 0x006ADD)) := by decide

/-- V-TAG-6; the word is R51's. -/
theorem test_decode_pktGeneric6 : decode (.packet 0x651122ABCD004551FFFF#80) = .ok (.pktGeneric6 (tagFields 0x004551)) := by decide

/-- V-TAG-7; the word is R51's. -/
theorem test_decode_pktGeneric7 : decode (.packet 0x751122ABCD005FD5FFFF#80) = .ok (.pktGeneric7 (tagFields 0x005FD5)) := by decide

/-- V-TAG-8; the word is R51's. -/
theorem test_decode_pktTemp : decode (.packet 0x851122ABCD00CE69FFFF#80) = .ok (.pktTemp (tagFields 0x00CE69)) := by decide

/-- V-TAG-9; the word is R51's. -/
theorem test_decode_pktGeneric9 : decode (.packet 0x951122ABCD00D4EDFFFF#80) = .ok (.pktGeneric9 (tagFields 0x00D4ED)) := by decide

/-- V-TAG-A; the word is R51's. -/
theorem test_decode_pktHum : decode (.packet 0xA51122ABCD00FB61FFFF#80) = .ok (.pktHum (tagFields 0x00FB61)) := by decide

/-- V-TAG-B; the word is R51's. -/
theorem test_decode_pktGenericB : decode (.packet 0xB51122ABCD00E1E5FFFF#80) = .ok (.pktGenericB (tagFields 0x00E1E5)) := by decide

/-- V-TAG-C; the word is R51's. -/
theorem test_decode_pktGenericC : decode (.packet 0xC51122ABCD00A479FFFF#80) = .ok (.pktGenericC (tagFields 0x00A479)) := by decide

/-- V-TAG-D; the word is R51's. -/
theorem test_decode_pktGenericD : decode (.packet 0xD51122ABCD00BEFDFFFF#80) = .ok (.pktGenericD (tagFields 0x00BEFD)) := by decide

/-- V-TAG-E; the word is R51's. -/
theorem test_decode_pktRain : decode (.packet 0xE51122ABCD009171FFFF#80) = .ok (.pktRain (tagFields 0x009171)) := by decide

/-- V-TAG-F; the word is R51's. -/
theorem test_decode_pktGenericF : decode (.packet 0xF51122ABCD008BF5FFFF#80) = .ok (.pktGenericF (tagFields 0x008BF5)) := by decide

/-- 95 section 2.7: the word of `80 0D 80 0C 80 00 46 9B FF FF`; the ten bytes and the word are one. -/
theorem test_packet_word :
    RawPacket.ofWord 0x800D800C8000469BFFFF#80 =
        { b0 := 0x80, b1 := 0x0D, b2 := 0x80, b3 := 0x0C, b4 := 0x80, b5 := 0x00, b6 := 0x46, b7 := 0x9B, b8 := 0xFF, b9 := 0xFF } ∧
      (RawPacket.ofWord 0x800D800C8000469BFFFF#80).word = 0x800D800C8000469BFFFF#80 := by decide

/-- The numbering of the opcode table: one 24-bit word, one 80-bit word; V-SY-17 for a word that is refused. -/
theorem test_decodeTableWord :
    decodeTableWord 24 0x11030C = some (.pstb 3 0x0C) ∧ decodeTableWord 24 0x320000 = none ∧
    decodeTableWord 24 0x1000000 = none ∧ decodeTableWord 16 0x1000 = none ∧
    decodeTableWord 80 0x8511 = some (.pktGeneric0 { x0 := 0, ws := 0, wd := 0, b3 := 0, b4 := 0, x5 := 0, ck := 0x8511 }) := by
  decide

/-! ### Well-formedness: each check refuses an ill-formed term -/

/-- R48: a byte index above 9. -/
theorem test_illFormed_pstb_index : (Instr.pstb 10 0).wellFormed = false ∧ (Instr.pstb 9 0xFF).wellFormed = true := by decide

/-- R48: a byte index above 9. -/
theorem test_illFormed_pldb_index : (Instr.pldb 10).wellFormed = false ∧ (Instr.pldb 9).wellFormed = true := by decide

/-- R48: a register number above 9. -/
theorem test_illFormed_rdr_register : (Instr.rdr 10).wellFormed = false ∧ (Instr.rdr 9).wellFormed = true := by decide

/-- R48: a register `WRC` may not write, each side of register 1. -/
theorem test_illFormed_wrc_register : (Instr.wrc 0 8).wellFormed = false ∧ (Instr.wrc 2 8).wellFormed = false := by decide

/-- R48: a range below 1 or above 10. -/
theorem test_illFormed_wrc_value :
    (Instr.wrc 1 0).wellFormed = false ∧ (Instr.wrc 1 11).wellFormed = false ∧ (Instr.wrc 1 1).wellFormed = true ∧
      (Instr.wrc 1 10).wellFormed = true := by decide

/-- R54 (a): an `op` that is none of the seventeen (program P5, V-SY-17). -/
theorem test_illFormed_word_op :
    RequestWord.wellFormed 0x000000#24 = false ∧ RequestWord.wellFormed 0x130000#24 = false ∧
      RequestWord.wellFormed 0x530000#24 = false ∧ RequestWord.wellFormed 0xFFFFFF#24 = false := by decide

/-- R54 (b): format `Z` with `a` or `b` not zero (V-PB-10). -/
theorem test_illFormed_word_Z :
    RequestWord.wellFormed 0x100001#24 = false ∧ RequestWord.wellFormed 0x100100#24 = false ∧
      RequestWord.wellFormed 0x100000#24 = true := by decide

/-- R54 (c): format `A` with `b` not zero (V-PB-11). -/
theorem test_illFormed_word_A :
    RequestWord.wellFormed 0x120301#24 = false ∧ RequestWord.wellFormed 0x120300#24 = true := by decide

/-- V-SY-17, V-OP-6, V-UT-28: the decoder rejects what is not well-formed, by name. -/
theorem test_decode_rejects :
    decodeRequest 0x320000#24 = .error (.undefinedOp 0x32) ∧
      decodeRequest 0x213101#24 = .error (.unusedFieldNotZero 0x21 0x31 0x01) ∧
      decodeRequest 0x448101#24 = .error (.unusedFieldNotZero 0x44 0x81 0x01) := by decide

/-! ### The function layer -/

/-- V-CRC-3, V-CRC-5, V-CRC-9, V-CRC-12, V-CRC-14. -/
theorem test_crc16Byte :
    crc16Byte 0x0000 0x01 = 0x1021 ∧ crc16Byte 0x0000 0x80 = 0x9188 ∧ crc16Byte 0x2672 0x32 = 0x20B5 ∧
      crc16Byte 0xFFFF 0xFF = 0xFF00 ∧ crc16Byte 0x1021 0x10 = 0x2100 := by decide +kernel

/-- V-CRC-10, V-CRC-16, V-CRC-17. -/
theorem test_crc16 :
    crc16 [0x31, 0x32, 0x33, 0x34, 0x35, 0x36, 0x37, 0x38, 0x39] = 0x31C3 ∧
      crc16 [0xFF, 0xFF, 0xFF, 0xFF, 0xFF, 0xFF, 0xFF, 0xFF] = 0xA6E1 ∧
      crc16 [0x80, 0x0D, 0x80, 0x0C, 0x80, 0x00, 0x12, 0x34, 0x86, 0x7E] = 0x0000 ∧
      crc16 [0x80, 0x0D, 0x80, 0x0C, 0x80, 0x00, 0x12, 0x34, 0x7E, 0x86] = 0xF47F := by decide +kernel

/-- V-CRC-22. -/
theorem test_crcTable : crcTable 0x02 = 0x2042 ∧ crcTable 0xFF = 0x1EF0 := by decide +kernel

/-- V-DEC-1. -/
theorem test_tagOf : tagOf 0x8F = 0x8 ∧ tagOf 0xA1 = 0xA ∧ tagOf 0x0F = 0x0 := by decide

/-- V-DEC-2, V-DEC-3. -/
theorem test_kindOf :
    [0x8#4, 0xA#4, 0xE#4].map kindOf = [.temp, .hum, .rain] ∧
      [0x0#4, 0x1#4, 0x2#4, 0x3#4, 0x4#4, 0x5#4, 0x6#4, 0x7#4, 0x9#4, 0xB#4, 0xC#4, 0xD#4, 0xF#4].map kindOf =
        List.replicate 13 .generic := by decide

/-- V-UT-5: the three stages. -/
theorem test_reverse_stages :
    swapNibbles 0xD0 = 0x0D ∧ swapPairs 0x0D = 0x07 ∧ swapBits 0x07 = 0x0B ∧ reverseBitsStaged 0xD0 = 0x0B := by decide

/-! ### One request, through its word -/

/-- The state with the packet of an 80-bit word in the buffer and the given range. -/
def loaded (P : PacketWord) (n : BitVec 4) : State :=
  { State.reset with pkt := Memory.ofPacket (RawPacket.ofWord P), len := n }

/-- `80 0D 80 0C 80 00 46 9B FF FF`, the packet of program P1. -/
def p1 : PacketWord := 0x800D800C8000469BFFFF

/-- The state after one step on the word. -/
def after (w : RequestWord) (s : State) : State :=
  match step (s.issue w) with
  | .next t => t
  | .fault _ => s
  | .refused _ => s

/-- The 20-bit response to a word. -/
def response (w : RequestWord) (s : State) : Option (BitVec 20) := ((after w s).responses.getLast?).map Response.word

/-- V-PB-9. -/
theorem test_pclr :
    let t := after 0x100000 (after 0x310000 (loaded p1 8))
    t.pkt = [] ∧ t.status.word = 0 ∧ t.results = Results.none ∧ t.len = 8 := by decide +kernel

/-- V-PB-2, V-PB-4. -/
theorem test_pstb_stores :
    let t := after 0x1109FF (after 0x110080 State.reset)
    t.pkt = [(0, 0x80), (9, 0xFF)] ∧ t.pkt.pv = 0x201 ∧ response 0x1109FF State.reset = some 0x00000 := by decide +kernel

/-- V-PB-5; V-PB-8 for the invalidation by an equal byte. -/
theorem test_pstb_index :
    response 0x110A00 State.reset = some 0x30000 ∧ (after 0x110A00 (loaded p1 8)).pkt = (loaded p1 8).pkt ∧
      (after 0x11030C (after 0x310000 (loaded p1 8))).results = Results.none := by decide +kernel

/-- V-PB-3, V-PB-7. -/
theorem test_pldb_value :
    response 0x120000 (loaded p1 8) = some 0x00080 ∧ response 0x120800 (loaded p1 8) = some 0x000FF := by decide +kernel

/-- V-PB-1, V-PB-6. -/
theorem test_pldb_errors :
    response 0x120000 State.reset = some 0x40000 ∧ (after 0x120000 State.reset).status.word = 0x0048 ∧
      response 0x12FF00 State.reset = some 0x30000 := by decide +kernel

/-- V-OP-1. -/
theorem test_cinit :
    (after 0x200000 { State.reset with acc := 0x31C3 }).acc = 0 ∧
      response 0x200000 { State.reset with acc := 0x31C3 } = some 0x00000 := by decide +kernel

/-- V-OP-2, V-OP-3, V-OP-5. -/
theorem test_cbyte :
    response 0x213100 State.reset = some 0x02672 ∧ (after 0x213200 (after 0x213100 State.reset)).acc = 0x20B5 ∧
      response 0x21FF00 { State.reset with acc := 0xFFFF } = some 0x0FF00 := by decide +kernel

/-- V-OP-4. -/
theorem test_crd :
    response 0x220000 { State.reset with acc := 0x20B5 } = some 0x020B5 := by decide +kernel

/-- V-OP-7 to V-OP-10. -/
theorem test_pcrc_ranges :
    response 0x230000 (loaded p1 8) = some 0x00000 ∧ response 0x230000 (loaded p1 6) = some 0x0469B ∧
      response 0x230000 (loaded p1 10) = some 0x01D0F ∧ response 0x230000 (loaded p1 1) = some 0x09188 := by decide +kernel

/-- V-OP-11, V-OP-12. -/
theorem test_pcrc_partial :
    let s := { loaded p1 8 with pkt := (loaded p1 8).pkt.take 8 }
    response 0x230000 s = some 0x00000 ∧ response 0x230000 { s with len := 9 } = some 0x40000 := by decide +kernel

/-- 95 section 2.4, `PTAG`. -/
theorem test_ptag :
    response 0x300000 { State.reset with pkt := [(0, 0xA1)] } = some 0x0000A ∧
      response 0x300000 { State.reset with pkt := [(1, 0xA1)] } = some 0x40000 := by decide +kernel

/-- V-DEC-10, V-DEC-12, V-DEC-14, V-DEC-15. -/
theorem test_pdec_accepts :
    (after 0x310000 (loaded p1 8)).status.word = 0x0003 ∧
      (after 0x310000 (loaded p1 8)).results =
        { rTag := some 0x8, rCrc := some 0x0000, rKind := some 1, rVal := some 0x0C80, rWspd := some 0x0D, rWdir := some 0x80 } ∧
      response 0x310000 (loaded 0xA11A405C3B007A20FFFF 8) = some 0x0035C ∧
      response 0x310000 (loaded 0xE000FF7F000034A2FFFF 8) = some 0x0007F ∧
      response 0x310000 (loaded 0x50072AABCD0065C0FFFF 8) = some 0x00ABC := by decide +kernel

/-- V-DEC-18, V-DEC-20; program P9 for a partial buffer. -/
theorem test_pdec_rejects :
    response 0x310000 (loaded 0x800D800D8000469BFFFF 8) = some 0x1AA51 ∧
      (after 0x310000 (loaded 0xFFFFFFFFFFFFFFFFFFFF 10)).status.word = 0x0005 ∧
      (after 0x310000 (loaded 0xFFFFFFFFFFFFFFFFFFFF 10)).results = { Results.none with rTag := some 0xF, rCrc := some 0x47D8 } ∧
      response 0x310000 { loaded p1 8 with pkt := (loaded p1 8).pkt.take 9 } = some 0x40000 := by decide +kernel

/-- V-UT-7, V-UT-10. -/
theorem test_rev8 : response 0x401200 State.reset = some 0x00048 ∧ response 0x40FE00 State.reset = some 0x0007F := by decide +kernel

/-- V-UT-13, V-UT-15. -/
theorem test_cmb12 : response 0x41ABCD State.reset = some 0x00ABC ∧ response 0x410010 State.reset = some 0x00001 := by decide +kernel

/-- V-UT-17, V-UT-19. -/
theorem test_cmb12h : response 0x42ABCD State.reset = some 0x00CAB ∧ response 0x420010 State.reset = some 0x00100 := by decide +kernel

/-- V-UT-21, V-UT-22. -/
theorem test_cmb16 : response 0x430C80 State.reset = some 0x00C80 ∧ response 0x43FFFF State.reset = some 0x0FFFF := by decide +kernel

/-- V-UT-25, V-UT-27. -/
theorem test_msk7 : response 0x448100 State.reset = some 0x00001 ∧ response 0x44FF00 State.reset = some 0x0007F := by decide +kernel

/-- Program P1 and V-SY-2; the ten registers. -/
theorem test_rdr_values :
    let t := after 0x310000 (loaded p1 8)
    [0x500000#24, 0x500100#24, 0x500200#24, 0x500300#24, 0x500400#24, 0x500500#24, 0x500600#24, 0x500700#24, 0x500800#24,
        0x500900#24].map (fun w => response w t) =
      [some 0x00003, some 0x00008, some 0x00000, some 0x003FF, some 0x00008, some 0x00000, some 0x00001, some 0x00C80,
        some 0x0000D, some 0x00080] := by decide +kernel

/-- V-SY-5, V-SY-6. -/
theorem test_rdr_errors :
    response 0x500400 State.reset = some 0x50000 ∧ (after 0x500400 State.reset).status.word = 0x0058 ∧
      response 0x500900 State.reset = some 0x50000 ∧ response 0x500A00 State.reset = some 0x30000 := by decide +kernel

/-- V-SY-7, V-SY-8. -/
theorem test_wrc_sets :
    response 0x51010A State.reset = some 0x0000A ∧ (after 0x51010A (after 0x310000 (loaded p1 8))).len = 10 ∧
      (after 0x51010A (after 0x310000 (loaded p1 8))).results = Results.none ∧ (after 0x510101 State.reset).len = 1 := by decide +kernel

/-- V-SY-9 to V-SY-14. -/
theorem test_wrc_errors :
    [0x510100#24, 0x51010B#24, 0x5101FF#24, 0x510008#24, 0x510200#24, 0x510700#24].map (fun w => response w State.reset) =
      [some 0x60000, some 0x60000, some 0x60000, some 0x30000, some 0x30000, some 0x30000] ∧
      (after 0x51010B State.reset).len = 8 := by decide +kernel

/-- V-SY-15, V-SY-18. -/
theorem test_eclr :
    (after 0x520000 (after 0x120000 State.reset)).status.word = 0x0000 ∧
      (after 0x520000 (after 0x310000 (loaded 0x800D800D8000469BFFFF 8))).status.word = 0x0005 := by decide +kernel

/-- V-SY-16, V-SY-17. -/
theorem test_first_error_kept :
    (after 0x500A00 (after 0x120000 State.reset)).status.ecode = 4 ∧
      response 0x500A00 (after 0x120000 State.reset) = some 0x30000 ∧ response 0x130000 State.reset = some 0x20000 := by decide +kernel

/-- Program P9: `RESET` between requests. -/
theorem test_reset_event :
    (match step { after 0x120000 (loaded p1 10) with pending := [.reset] } with
      | .next t => decide (t.pkt = [] ∧ t.len = 8 ∧ t.status.word = 0 ∧ t.acc = 0)
      | _ => false) = true := by decide +kernel

/-! ### Packet rows: the row run on its fields, and the step that `withFetchWord` prepares -/

/-- The response and the result registers an instruction leaves. -/
def ran (i : Instr) (s : State) : Option (BitVec 20 × Results) :=
  match exec i s with
  | .next t => t.responses.getLast?.map fun r => (r.word, t.results)
  | .fault _ => none
  | .refused _ => none

/-- What V-TAG-0 to V-TAG-F leave, by tag, kind and value. -/
def tagResult (tag : BitVec 4) (kind : BitVec 2) (v : Word16) : Option (BitVec 20 × Results) :=
  some (0x0#4 ++ v, { rTag := some tag, rCrc := some 0, rKind := some kind, rVal := some v, rWspd := some 0x11, rWdir := some 0x22 })

/-- V-TAG-0. -/
theorem test_run_pktGeneric0 :
    ran (.pktGeneric0 (tagFields 0x001A49)) State.reset = tagResult 0x0 0 0x0ABC ∧
      response 0x310000 (loaded 0x051122ABCD001A49FFFF 8) = some 0x00ABC := by decide +kernel

/-- V-TAG-1. -/
theorem test_run_pktGeneric1 :
    ran (.pktGeneric1 (tagFields 0x0000CD)) State.reset = tagResult 0x1 0 0x0ABC ∧
      response 0x310000 (loaded 0x151122ABCD0000CDFFFF 8) = some 0x00ABC := by decide +kernel

/-- V-TAG-2. -/
theorem test_run_pktGeneric2 :
    ran (.pktGeneric2 (tagFields 0x002F41)) State.reset = tagResult 0x2 0 0x0ABC ∧
      response 0x310000 (loaded 0x251122ABCD002F41FFFF 8) = some 0x00ABC := by decide +kernel

/-- V-TAG-3. -/
theorem test_run_pktGeneric3 :
    ran (.pktGeneric3 (tagFields 0x0035C5)) State.reset = tagResult 0x3 0 0x0ABC ∧
      response 0x310000 (loaded 0x351122ABCD0035C5FFFF 8) = some 0x00ABC := by decide +kernel

/-- V-TAG-4. -/
theorem test_run_pktGeneric4 :
    ran (.pktGeneric4 (tagFields 0x007059)) State.reset = tagResult 0x4 0 0x0ABC ∧
      response 0x310000 (loaded 0x451122ABCD007059FFFF 8) = some 0x00ABC := by decide +kernel

/-- V-TAG-5. -/
theorem test_run_pktGeneric5 :
    ran (.pktGeneric5 (tagFields 0x006ADD)) State.reset = tagResult 0x5 0 0x0ABC ∧
      response 0x310000 (loaded 0x551122ABCD006ADDFFFF 8) = some 0x00ABC := by decide +kernel

/-- V-TAG-6. -/
theorem test_run_pktGeneric6 :
    ran (.pktGeneric6 (tagFields 0x004551)) State.reset = tagResult 0x6 0 0x0ABC ∧
      response 0x310000 (loaded 0x651122ABCD004551FFFF 8) = some 0x00ABC := by decide +kernel

/-- V-TAG-7. -/
theorem test_run_pktGeneric7 :
    ran (.pktGeneric7 (tagFields 0x005FD5)) State.reset = tagResult 0x7 0 0x0ABC ∧
      response 0x310000 (loaded 0x751122ABCD005FD5FFFF 8) = some 0x00ABC := by decide +kernel

/-- V-TAG-8. -/
theorem test_run_pktTemp :
    ran (.pktTemp (tagFields 0x00CE69)) State.reset = tagResult 0x8 1 0xABCD ∧
      response 0x310000 (loaded 0x851122ABCD00CE69FFFF 8) = some 0x0ABCD := by decide +kernel

/-- V-TAG-9. -/
theorem test_run_pktGeneric9 :
    ran (.pktGeneric9 (tagFields 0x00D4ED)) State.reset = tagResult 0x9 0 0x0ABC ∧
      response 0x310000 (loaded 0x951122ABCD00D4EDFFFF 8) = some 0x00ABC := by decide +kernel

/-- V-TAG-A. -/
theorem test_run_pktHum :
    ran (.pktHum (tagFields 0x00FB61)) State.reset = tagResult 0xA 2 0x0CAB ∧
      response 0x310000 (loaded 0xA51122ABCD00FB61FFFF 8) = some 0x00CAB := by decide +kernel

/-- V-TAG-B. -/
theorem test_run_pktGenericB :
    ran (.pktGenericB (tagFields 0x00E1E5)) State.reset = tagResult 0xB 0 0x0ABC ∧
      response 0x310000 (loaded 0xB51122ABCD00E1E5FFFF 8) = some 0x00ABC := by decide +kernel

/-- V-TAG-C. -/
theorem test_run_pktGenericC :
    ran (.pktGenericC (tagFields 0x00A479)) State.reset = tagResult 0xC 0 0x0ABC ∧
      response 0x310000 (loaded 0xC51122ABCD00A479FFFF 8) = some 0x00ABC := by decide +kernel

/-- V-TAG-D. -/
theorem test_run_pktGenericD :
    ran (.pktGenericD (tagFields 0x00BEFD)) State.reset = tagResult 0xD 0 0x0ABC ∧
      response 0x310000 (loaded 0xD51122ABCD00BEFDFFFF 8) = some 0x00ABC := by decide +kernel

/-- V-TAG-E. -/
theorem test_run_pktRain :
    ran (.pktRain (tagFields 0x009171)) State.reset = tagResult 0xE 3 0x002B ∧
      response 0x310000 (loaded 0xE51122ABCD009171FFFF 8) = some 0x0002B := by decide +kernel

/-- V-TAG-F. -/
theorem test_run_pktGenericF :
    ran (.pktGenericF (tagFields 0x008BF5)) State.reset = tagResult 0xF 0 0x0ABC ∧
      response 0x310000 (loaded 0xF51122ABCD008BF5FFFF 8) = some 0x00ABC := by decide +kernel

/-- Log entry 5: the step `withFetchWord` prepares, for a request word (V-PB-2) and for a packet word (V-TAG-8). -/
theorem test_withFetchWord :
    (match step (State.reset.withFetchWord 24 0x110080) with
      | .next t => decide (t.pkt = [(0, 0x80)] ∧ t.pending = [])
      | _ => false) = true ∧
    (match step (State.reset.withFetchWord 80 0x851122ABCD00CE69FFFF) with
      | .next t => decide (t.results.rVal = some 0xABCD ∧ t.pending = [])
      | _ => false) = true := by decide +kernel

/-- 00_scope.md R9: a request issued while another is pending is taken after it (V-OP-2, then V-OP-1); the response a host
takes is the one to its own request (V-OP-2, then V-OP-4). -/
theorem test_issue_order :
    let s := { State.reset with pending := [HostEvent.request 0x213100] }
    (match step (s.issue 0x200000) with
      | .next t => decide (t.acc = 0x2672 ∧ t.pending = [.request 0x200000])
      | _ => false) = true ∧
    (s.serve .crd).map (fun x => (x.1, x.2.pending)) = some ({ code := .ok, val := 0x2672 }, []) := by decide +kernel

/-! ### The assembler and the host's software -/

/-- R58: its examples. -/
theorem test_assemble :
    assembleLine "PCLR".toList = some [.pclr] ∧ assembleLine "PSTB 3, 0x0C ; store".toList = some [.pstb 3 0x0C] ∧
      assembleLine "CBYTE 0x31".toList = some [.cbyte 0x31] ∧ assembleLine "WRC 1, 10".toList = some [.wrc 1 10] ∧
      assembleLine "RDR 256".toList = none := by decide +kernel

/-- R59. -/
theorem test_assemble_pseudo :
    assembleLine "SETLEN 9".toList = some [.wrc 1 9] ∧
      assembleLine "CRC16 0x31 50".toList = some [.cinit, .cbyte 0x31, .cbyte 0x32, .crd] := by decide +kernel

/-- S4, S7, S8 of 95 section 1; V-H-2, V-H-8. -/
theorem test_unit_conversions :
    degF 3200 = 20 ∧ degC 3200 = -20 / 3 ∧ degC 0 = -160 / 9 ∧ windSpeed 13 = 5 ∧ windDirection 128 = 3072 / 17 ∧
      windDirection 255 = 360 := by decide +kernel

/-- V-H-9. -/
theorem test_rainUnwrap :
    rainUnwrap none 57 = (0, some 57) ∧ rainUnwrap (some 126) 2 = (4, some 2) ∧ rainUnwrap (some 127) 0 = (1, some 0) ∧
      rainUnwrap (some 10) 9 = (127, some 9) := by decide

/-- R58, log entry 13: a stray comma makes a line none of the three forms. -/
theorem test_assemble_stray_comma :
    assembleLine "PCLR ,".toList = none ∧ assembleLine "PLDB 3,".toList = none ∧
      assembleLine "PSTB 3,,4".toList = none ∧ assembleLine "PSTB 3 , 4".toList = some [.pstb 3 4] := by decide +kernel

/-- A line that starts with neither white space nor a dot is scanned as it stands but for its trailing white space. -/
theorem preprocess_plain {before after : Bool} {c : Char} {cs : List Char} (hs : c.isWhitespace = false) (hd : c ≠ '.') :
    preprocess before after (c :: cs) = stripTrailing (c :: cs) := by
  cases before <;> cases after <;> simp [preprocess, stripLeading, hs, hd]

/-- S10: a receiver diagnostic. -/
theorem test_scan_search : frameScan "Search for station...".toList = .diagnostic := by
  have h : "Search for station...".toList = 'S' :: "earch for station...".toList := by decide
  unfold frameScan searchText
  rw [h, preprocess_plain (by decide) (by decide)]
  decide +kernel

/-- S11: the sentinel at position 2; the capture timestamp is 17. -/
theorem test_scan_sentinel :
    frameScan "80 0D ZZ 0C 80 00 46 9B FF FF 17".toList = .frame (RawPacket.ofWord 0x800DFF0C8000469BFFFF) 17 := by
  have h : "80 0D ZZ 0C 80 00 46 9B FF FF 17".toList = '8' :: "0 0D ZZ 0C 80 00 46 9B FF FF 17".toList := by decide
  unfold frameScan searchText tokenText
  rw [h, preprocess_plain (by decide) (by decide), preprocess_plain (by decide) (by decide)]
  decide +kernel

/-- R118: a hexadecimal byte value in either case, of one digit too; R119: the sentinel for any other text. -/
theorem test_byteOfToken :
    byteOfToken "9b".toList = 0x9B ∧ byteOfToken "5".toList = 0x05 ∧ byteOfToken "ZZ".toList = 0xFF ∧
      byteOfToken "0x".toList = 0xFF := by decide +kernel

/-- R120: tokens of no decimal floating-point form fail to parse; R122: the fraction is kept. -/
theorem test_parseTimestamp :
    parseTimestamp "1.2.3".toList = none ∧ parseTimestamp "2024-01-02".toList = none ∧ parseTimestamp "e5".toList = none ∧
      parseTimestamp "abc".toList = none ∧ parseTimestamp "17.25".toList = some (69 / 4) := by decide +kernel

/-- 91_not_in_source.md N10: the timestamp forms that stay open, and some that are none. -/
theorem test_openTimestampForm :
    (["-1", "1e9", "+1.5E-3", ".5", "5.", "nan", "-inf"].all fun t => openTimestampForm t.toList) = true ∧
      (["e5", "1e", "1e+", ".", "-", "1-2", "1.2.3", "--1", ""].all fun t => !openTimestampForm t.toList) = true := by
  decide +kernel

/-- R116: leading white space makes no difference to the tokens, the dots after it included. -/
theorem test_tokens_leading_space :
    spaceWords (tokenText " .. 80 0D".toList) = spaceWords (tokenText "80 0D".toList) := by decide +kernel

/-! ### Witnesses -/

/-- The packet of program P1 as ten bytes. -/
def q1 : RawPacket := RawPacket.ofWord p1

/-- The packet of program P2, rejected with 0xAA51. -/
def p2 : PacketWord := 0x800D800D8000469BFFFF

/-- A state with the packet accepted, `DONE` and `OK` set and all six result registers holding values. -/
def acceptedState : State :=
  { loaded p1 8 with
    status := { done := true, ok := true, bad := false, err := false, ecode := 0 }
    results :=
      { rTag := some 0x8, rCrc := some 0, rKind := some 1, rVal := some 0x0C80, rWspd := some 0x0D, rWdir := some 0x80 } }

/-- A state with a rejected packet and an error latched. -/
def rejectedState : State :=
  { loaded p2 8 with
    status := { done := true, ok := false, bad := true, err := true, ecode := 3 }
    results := { Results.none with rTag := some 0x8, rCrc := some 0xAA51 } }

/-- Both states are reached: `PDEC`, and `PDEC` and then `PLDB 10`, on the loaded buffer. -/
theorem test_states_reached :
    { after 0x310000 (loaded p1 8) with responses := [] } = acceptedState ∧
      { after 0x120A00 (after 0x310000 (loaded p2 8)) with responses := [] } = rejectedState := by decide +kernel

/-- The host has issued these words. -/
def issued (ws : List RequestWord) (s : State) : State := { s with pending := ws.map HostEvent.request }

theorem loaded_holds (P : PacketWord) (n : BitVec 4) : (loaded P n).pkt.Holds (RawPacket.ofWord P) :=
  ⟨rfl, rfl, rfl, rfl, rfl, rfl, rfl, rfl, rfl, rfl⟩

theorem acceptedState_holds : acceptedState.pkt.Holds q1 := ⟨rfl, rfl, rfl, rfl, rfl, rfl, rfl, rfl, rfl, rfl⟩

theorem rejectedState_holds : rejectedState.pkt.Holds (RawPacket.ofWord p2) :=
  ⟨rfl, rfl, rfl, rfl, rfl, rfl, rfl, rfl, rfl, rfl⟩

/-- The invariants hold in a state with results and flags set. -/
theorem witness_inv_accepted : acceptedState.Inv where
  memory := by decide +kernel
  range := by decide +kernel
  notDone := by decide +kernel
  done := fun _ => ⟨by decide +kernel, by decide +kernel, q1, acceptedState_holds, by decide +kernel, by decide +kernel⟩
  accepted := fun _ =>
    ⟨by decide +kernel, q1, acceptedState_holds, by decide +kernel, by decide +kernel, by decide +kernel, by decide +kernel⟩
  rejected := by decide +kernel
  noError := by decide +kernel
  error := by decide +kernel

/-- The invariants hold in a state with a rejected packet and an error. -/
theorem witness_inv_rejected : rejectedState.Inv where
  memory := by decide +kernel
  range := by decide +kernel
  notDone := by decide +kernel
  done := fun _ =>
    ⟨by decide +kernel, by decide +kernel, RawPacket.ofWord p2, rejectedState_holds, by decide +kernel, by decide +kernel⟩
  accepted := fun h => nomatch h
  rejected := fun _ =>
    ⟨⟨0xAA51, by decide +kernel, by decide +kernel⟩, by decide +kernel, by decide +kernel, by decide +kernel,
      by decide +kernel⟩
  noError := by decide +kernel
  error := by decide +kernel

theorem witness_DecodeAndEncodeAreInverse :
    decode (.request 0x1109FF#24) = .ok (.pstb 9 0xFF) ∧ decode (.packet 0#80) = .ok (packetRow 0 (packetFields 0)) := by
  decide

theorem witness_IllegalRequestWordsAnswerIllegal :
    (issued [0x000000, 0x220000] acceptedState).pending = .request 0x000000 :: [.request 0x220000] ∧
      decodeRequest 0x000000 = .error (.undefinedOp 0) := ⟨rfl, by decide⟩

theorem witness_StepRunsTheDecodedRequest :
    ((issued [0x11030C, 0x220000] acceptedState).pending = .request 0x11030C :: [.request 0x220000] ∧
        decodeRequest 0x11030C = .ok (.pstb 3 0x0C)) ∧
      ((issued [0x100001] acceptedState).pending = .request 0x100001 :: [] ∧
        decodeRequest 0x100001 = .error (.unusedFieldNotZero 0x10 0 1)) ∧
      ({ acceptedState with pending := [.reset] } : State).pending = .reset :: [] ∧ acceptedState.pending = [] :=
  ⟨⟨rfl, by decide⟩, ⟨rfl, by decide⟩, rfl, rfl⟩

theorem witness_PdecRunsThePacketInTheBuffer :
    (issued [0x310000] (loaded p1 8)).pending = .request 0x310000#24 :: [] ∧
      (issued [0x310000] (loaded p1 8)).pkt.Holds (RawPacket.ofWord p1) := ⟨rfl, loaded_holds p1 8⟩

theorem witness_EveryRequestGetsOneResponse :
    (issued [0x310000] (loaded p2 8)).pending = .request 0x310000 :: [] ∧
      (issued [0x310000] (loaded p2 8)).answersWith (after 0x310000 (loaded p2 8)) .badcrc 0xAA51 ∧
      (issued [0x310000] State.reset).answersWith (after 0x310000 State.reset) .eUninit 0 ∧ Code.isError .eUninit = true :=
  ⟨rfl, by unfold State.answersWith; decide +kernel, by unfold State.answersWith; decide +kernel, rfl⟩

theorem witness_EveryRequestSequenceIsAnswered :
    (issued [0x213100, 0x000000, 0x310000] acceptedState).pending =
      [0x213100#24, 0x000000#24, 0x310000#24].map HostEvent.request := rfl

theorem witness_StepKeepsTheRegisterInvariants :
    acceptedState.Inv ∧ rejectedState.Inv ∧ (∃ t, step (issued [0x51010A] acceptedState) = .next t) :=
  ⟨witness_inv_accepted, witness_inv_rejected, exec_answers (.wrc 1 10) acceptedState⟩

theorem witness_resetIssued :
    ({ rejectedState with pending := [.reset, .request 0x220000] } : State).pending = .reset :: [.request 0x220000] := rfl

theorem witness_ExecKeepsThePacketBufferCanonical :
    (loaded p1 8).pkt.wf = true ∧ ∃ t, exec (.pstb 9 0xAA) (loaded p1 8) = .next t := ⟨by decide, _, rfl⟩

/-- Reading index 9 and index 10 of an empty buffer: the two sides of the range, and two kinds of error. -/
theorem witness_ErrorsChangeOnlyErrAndEcode :
    (∃ t, exec (.pldb 9) State.reset = .next t ∧ State.reset.answersWith t .eUninit 0) ∧
      (∃ t, exec (.pldb 10) rejectedState = .next t ∧ rejectedState.answersWith t .eIndex 0) ∧
      ∃ t, step (issued [0x000000, 0x220000] acceptedState) = .next t ∧
        (issued [0x000000, 0x220000] acceptedState).answersWith t .eIllegal 0 :=
  ⟨⟨_, rfl, rfl⟩, ⟨_, rfl, rfl⟩, ⟨_, rfl, rfl⟩⟩

theorem witness_SecondErrorSetsNothingNew :
    rejectedState.status.err = true ∧
      (∃ t, exec (.wrc 1 11) rejectedState = .next t ∧ rejectedState.answersWith t .eCfg 0) ∧
      (issued [0xFFFFFF] rejectedState).pending = .request 0xFFFFFF :: [] ∧
      decodeRequest 0xFFFFFF = .error (.undefinedOp 0xFF) :=
  ⟨by decide +kernel, ⟨_, rfl, rfl⟩, rfl, by decide⟩

theorem witness_ErrorPriority :
    (issued [0x12FF01] State.reset).pending = .request 0x12FF01 :: [] ∧
      decodeRequest 0x12FF01 = .error (.unusedFieldNotZero 0x12 0xFF 0x01) ∧
      (1#8 ≠ 0 ∧ 0#8 ≠ 1 ∧ 2#8 ≠ 1) ∧ 9 < (10#8).toNat ∧ 9 < (255#8).toNat := ⟨rfl, by decide, by decide, by decide, by decide⟩

/-- The hypotheses of `EncodedAsZ` (either field) and of `EncodedAsA`, in every obligation that names one of them. -/
theorem witness_EncodedAs :
    ((0#8 ≠ 0 ∨ 1#8 ≠ 0) ∧ (issued [0x100001] acceptedState).pending = .request (requestWord 0x10 0 1) :: []) ∧
      ((0x80#8 ≠ 0 ∨ 0#8 ≠ 0) ∧ (issued [0x108000] acceptedState).pending = .request (requestWord 0x10 0x80 0) :: []) ∧
      (1#8 ≠ 0 ∧ (issued [0x120301] acceptedState).pending = .request (requestWord 0x12 3 1) :: []) :=
  ⟨⟨by decide, rfl⟩, ⟨by decide, rfl⟩, by decide, rfl⟩

theorem witness_IllegalOperandsAndOnlyTheyAnswerIndexOrCfg :
    (Instr.pstb 10 0).wellFormed = false ∧ (Instr.wrc 1 11).wellFormed = false ∧ (Instr.pstb 9 0).wellFormed = true ∧
      (loaded p1 10).len.toNat ≤ 10 ∧
      ∃ t, exec (.pstb 9 0) (loaded p1 10) = .next t ∧ (loaded p1 10).answersWith t .ok 0 :=
  ⟨by decide, by decide, by decide, by decide, _, rfl, rfl⟩

theorem witness_AccumulatorWrittenOnlyByCinitAndCbyte :
    (∃ t, exec (.cbyte 0x31) State.reset = .next t ∧ t.acc = 0x2672) ∧ (∃ t, exec .cinit acceptedState = .next t) ∧
      ∃ t, exec .pdec (loaded p1 8) = .next t := ⟨⟨_, rfl, by decide +kernel⟩, exec_answers _ _, exec_answers _ _⟩

theorem witness_PacketBytesWrittenOnlyByPstbAndPclr :
    (∃ t, exec (.pstb 0 0x31) (loaded p1 8) = .next t ∧ t.pkt.read 0 ≠ (loaded p1 8).pkt.read 0) ∧
      (∃ t, exec (.pstb 9 0x31) State.reset = .next t ∧ t.pkt.read 9 ≠ State.reset.pkt.read 9) ∧
      ∃ t, exec .pclr (loaded p1 8) = .next t ∧ t.pkt.read 9 ≠ (loaded p1 8).pkt.read 9 :=
  ⟨⟨_, rfl, by decide⟩, ⟨_, rfl, by decide⟩, ⟨_, rfl, by decide⟩⟩

theorem witness_ChecksumRangeWrittenOnlyByWrc :
    (∃ t, exec (.wrc 1 1) acceptedState = .next t ∧ t.len ≠ acceptedState.len) ∧
      ∃ t, exec (.wrc 1 10) acceptedState = .next t ∧ t.len ≠ acceptedState.len :=
  ⟨⟨_, rfl, by decide +kernel⟩, ⟨_, rfl, by decide +kernel⟩⟩

theorem witness_StickyErrorClearedOnlyByEclr :
    rejectedState.status.err = true ∧ Instr.pclr ≠ .eclr ∧ ∃ t, exec .pclr rejectedState = .next t :=
  ⟨by decide +kernel, by decide, _, rfl⟩

theorem witness_NoStaleResults :
    (∃ t, step (issued [0x110301] acceptedState) = .next t ∧ t.pkt.read 3 ≠ acceptedState.pkt.read 3) ∧
      ∃ t, step (issued [0x51010A] acceptedState) = .next t ∧ t.len ≠ acceptedState.len :=
  ⟨⟨_, rfl, by decide +kernel⟩, ⟨_, rfl, by decide +kernel⟩⟩

theorem witness_AccumulatorAndPacketPathsDoNotInterfere :
    (Instr.rdr 0 ≠ .cinit ∧ Instr.rdr 0 ≠ .crd ∧ Instr.rdr 0 ≠ .rdr 2 ∧ ∃ t, exec (.rdr 0) acceptedState = .next t) ∧
      (∃ t, exec .cinit acceptedState = .next t) ∧ (∃ t, exec (.cbyte 0xFF) acceptedState = .next t) ∧
      ∃ t, exec .crd acceptedState = .next t :=
  ⟨⟨by decide, by decide, by decide, exec_answers _ _⟩, exec_answers _ _, exec_answers _ _, exec_answers _ _⟩

/-- Two states with one packet and one range that differ in the accumulator, the flags and the result registers. -/
theorem witness_PdecIsPure :
    (loaded p1 8).pkt.Holds q1 ∧ acceptedState.pkt.Holds q1 ∧ (loaded p1 8).len = acceptedState.len ∧
      (∃ t, exec .pdec (loaded p1 8) = .next t) ∧ ∃ t, exec .pdec acceptedState = .next t :=
  ⟨loaded_holds p1 8, acceptedState_holds, rfl, exec_answers _ _, exec_answers _ _⟩

theorem witness_RepeatingAnyOperationIsHarmless :
    (∀ d, Instr.pstb 10 0 ≠ .cbyte d) ∧ (∃ t u, exec (.pstb 10 0) acceptedState = .next t ∧ exec (.pstb 10 0) t = .next u) ∧
      ∃ t u, exec .pdec (loaded p1 8) = .next t ∧ exec .pdec t = .next u :=
  ⟨by simp, ⟨_, _, rfl, rfl⟩, ⟨_, _, (exec_answers _ _).choose_spec, (exec_answers _ _).choose_spec⟩⟩

theorem witness_PstbStoresOneByte :
    (0#8).toNat ≤ 9 ∧ (9#8).toNat ≤ 9 ∧ 9 < (10#8).toNat ∧ 9 < (255#8).toNat := by decide

theorem witness_PldbReadsOneByte :
    ((9#8).toNat ≤ 9 ∧ (loaded p1 8).pkt.read (9#8).toNat = some 0xFF) ∧
      ((9#8).toNat ≤ 9 ∧ State.reset.pkt.read (9#8).toNat = none) ∧ 9 < (10#8).toNat := by decide

theorem witness_StreamingChecksumIsCrc16 :
    (issued [0x200000, 0x213100, 0x213200, 0x220000, 0x310000] acceptedState).pending =
      (requestWords (Pseudo.crc16 [0x31, 0x32]).expand).map HostEvent.request ++ [.request 0x310000] := by decide +kernel

/-- The range at 10 and at 1, and an unwritten byte at index 0 and at `CFG.LEN - 1`. -/
theorem witness_PcrcReadsThePrefixChecksum :
    ((loaded p1 10).len.toNat ≤ 10 ∧ (packetBytes q1).length = (loaded p1 10).len.toNat ∧
        ∀ k, k < 10 → (loaded p1 10).pkt.read k = (packetBytes q1)[k]?) ∧
      ([0x80#8].length = (loaded p1 1).len.toNat ∧ (loaded p1 1).pkt.read 0 = some 0x80) ∧
      (0 < State.reset.len.toNat ∧ State.reset.pkt.read 0 = none) ∧
      (9 < (loaded p1 10).len.toNat ∧
        ({ loaded p1 10 with pkt := (loaded p1 10).pkt.take 9 } : State).pkt.read 9 = none) := by decide +kernel

theorem witness_PtagReadsTheTypeTag :
    (loaded p1 8).pkt.read 0 = some 0x80 ∧ State.reset.pkt.read 0 = none := by decide

theorem witness_PdecValidatesAndDecodes :
    ((loaded p1 8).pkt.Holds q1 ∧ checksum q1 (loaded p1 8).len.toNat = 0) ∧
      ((loaded p2 8).pkt.Holds (RawPacket.ofWord p2) ∧ checksum (RawPacket.ofWord p2) (loaded p2 8).len.toNat ≠ 0) ∧
      State.reset.pkt.read 0 = none ∧
      ({ loaded p1 8 with pkt := (loaded p1 8).pkt.take 9 } : State).pkt.read 9 = none :=
  ⟨⟨loaded_holds p1 8, by decide +kernel⟩, ⟨loaded_holds p2 8, by decide +kernel⟩, by decide, by decide⟩

/-- Accepted and rejected packets for the three recognised rows (V-TAG-8, V-TAG-A, V-TAG-E). -/
theorem witness_RecognisedPacketRowsDecode :
    checksum ((tagFields 0x00CE69).raw 0x8) 8 = 0 ∧ checksum ((tagFields 0x00FB61).raw 0xA) 8 = 0 ∧
      checksum ((tagFields 0x009171).raw 0xE) 8 = 0 ∧ checksum ((tagFields 0x00CE68).raw 0x8) 8 ≠ 0 ∧
      checksum ((tagFields 0x00FB60).raw 0xA) 8 ≠ 0 ∧ checksum ((tagFields 0x009170).raw 0xE) 8 ≠ 0 := by decide +kernel

/-- The CRC fields of V-TAG rows that the document does not recognise: accepted as they stand, rejected after a change. -/
theorem witness_GenericPacketRowsDecode :
    ([(0x0#4, 0x001A49#24), (0x1, 0x0000CD), (0x2, 0x002F41), (0x3, 0x0035C5), (0x4, 0x007059), (0x5, 0x006ADD),
        (0x6, 0x004551), (0x7, 0x005FD5), (0x9, 0x00D4ED), (0xB, 0x00E1E5), (0xC, 0x00A479), (0xD, 0x00BEFD),
        (0xF, 0x008BF5)].all fun c =>
      checksum ((tagFields c.2).raw c.1) 8 == 0 && checksum ((tagFields (c.2 ^^^ 1)).raw c.1) 8 != 0) = true := by
  decide +kernel

/-- Pairs of accepted packets that differ in ignored fields only: V-DEC-10 and V-DEC-25; V-DEC-13 with bit 7 of byte 3,
byte 4, `x0` and `x5` changed; V-DEC-11 and V-DEC-15 with the low nibble of byte 4, `x0` and `x5` changed. -/
theorem witness_IgnoredFieldsDoNotReachTheResults :
    ([0x800D800C8000469BFFFF#80, 0x800D800C8000469BFF00, 0xE00D808100007B10FFFF, 0xE30D8001FF07FDB2FFFF, 0xA00000320500B518FFFF,
        0xA70000320F119082FFFF, 0x50072AABCD0065C0FFFF, 0x5F072AABC0AAC23FFFFF].all fun P =>
      checksum (RawPacket.ofWord P) 8 == 0) = true ∧
    tagOf 0xE0 = tagOf 0xE3 ∧ (0x81#8).toNat % 128 = (0x01#8).toNat % 128 ∧
    tagOf 0xA0 = tagOf 0xA7 ∧ (0x05#8).toNat / 16 = (0x0F#8).toNat / 16 ∧
    tagOf 0x50 = tagOf 0x5F ∧ (0xCD#8).toNat / 16 = (0xC0#8).toNat / 16 := by decide +kernel

theorem witness_DecodeSequenceAnswersTheDecoder :
    (issued [0x100000, 0x110080, 0x11010D, 0x110280, 0x11030C, 0x110480, 0x110500, 0x110646, 0x11079B, 0x1108FF, 0x1109FF,
        0x310000, 0x500000] rejectedState).pending =
      (requestWords (Pseudo.decode q1).expand).map HostEvent.request ++ [.request 0x500000] := by decide +kernel

theorem witness_RdrReadsTheResultRegisters :
    (acceptedState.results.rTag = some 0x8 ∧ acceptedState.results.rCrc = some 0 ∧ acceptedState.results.rKind = some 1 ∧
        acceptedState.results.rVal = some 0x0C80 ∧ acceptedState.results.rWspd = some 0x0D ∧
        acceptedState.results.rWdir = some 0x80) ∧
      (State.reset.results = Results.none) ∧ 9 < (10#8).toNat := by decide +kernel

theorem witness_ResultRegistersAbsentExactlyWhenNotDone :
    acceptedState.Inv ∧ acceptedState.status.ok = true ∧ rejectedState.Inv ∧ rejectedState.status.ok = false ∧
      rejectedState.status.done = true :=
  ⟨witness_inv_accepted, by decide +kernel, witness_inv_rejected, by decide +kernel, by decide +kernel⟩

theorem witness_WrcSetsTheChecksumRange :
    (1 ≤ (1#8).toNat ∧ (1#8).toNat ≤ 10) ∧ (1 ≤ (10#8).toNat ∧ (10#8).toNat ≤ 10) ∧ (0#8).toNat = 0 ∧ 10 < (11#8).toNat ∧
      0#8 ≠ 1 ∧ 2#8 ≠ 1 := by decide

theorem witness_SingleBitChangesAreDetected : 0 < 8 ∧ 7 < 8 ∧ (1#8 <<< 7) = 0x80 := by decide

theorem witness_RainUnwrapRecoversTheTicks : 0 < 128 ∧ 127 < 128 := by decide

/-- The inversion of `exec` applies at a concrete step. -/
theorem effect_witness : ∃ t, exec (.wrc 1 10) acceptedState = .next t ∧ Effect (.wrc 1 10) acceptedState t :=
  ⟨_, rfl, exec_effect rfl⟩

end Sys2Proof.Tests
end

/-! PROOFS of the family 00_scope.md: what one step does (O5, O7), the response to a request (O8, O9), the order in
which requests are taken (O58). The lemmas come first, in the order of the definitions they speak of. -/

namespace Sys2Proof

/-! ### The decoder of request words -/

theorem decodeZ_eq_ok {op a b : Byte} {x i : Instr} (h : decodeZ op a b x = .ok i) : a = 0 ∧ b = 0 ∧ i = x := by
  unfold decodeZ at h
  split at h
  next hab =>
    cases h
    exact ⟨hab.1, hab.2, rfl⟩
  next => cases h

theorem decodeA_eq_ok {op a b : Byte} {x i : Instr} (h : decodeA op a b x = .ok i) : b = 0 ∧ i = x := by
  unfold decodeA at h
  split at h
  next hb =>
    cases h
    exact ⟨hb, rfl⟩
  next => cases h

/-- Three fields that decode are the fields of the encoding (R60). The cases are grouped by format: `Z`, `A`, `AB`, and
the codes R47 does not list. -/
theorem encode_of_decodeFields {op a b : Byte} {i : Instr} (h : decodeFields op a b = .ok i) :
    encode i = .request (requestWord op a b) := by
  unfold decodeFields at h
  split at h
  case h_1 | h_4 | h_6 | h_7 | h_8 | h_9 | h_17 =>
    obtain ⟨rfl, rfl, rfl⟩ := decodeZ_eq_ok h
    rfl
  case h_3 | h_5 | h_10 | h_14 | h_15 =>
    obtain ⟨rfl, rfl⟩ := decodeA_eq_ok h
    rfl
  case h_2 | h_11 | h_12 | h_13 | h_16 =>
    cases h
    rfl
  case h_18 => cases h

/-- A request word is its three fields put together (R45). -/
theorem requestWord_fields (w : RequestWord) : requestWord (requestOp w) (requestA w) (requestB w) = w := by
  apply BitVec.eq_of_toNat_eq
  have := w.isLt
  simp only [requestWord_toNat, requestOp, requestA, requestB, extract_toNat]
  omega

/-- A request word that decodes is the encoding of what it decodes to (R60). -/
theorem encode_of_decodeRequest {w : RequestWord} {i : Instr} (h : decodeRequest w = .ok i) : encode i = .request w := by
  rw [encode_of_decodeFields h, requestWord_fields]

/-- Only one word decodes to `PDEC` (R47). -/
theorem eq_pdecWord_of_decodeRequest {w : RequestWord} (h : decodeRequest w = .ok .pdec) : w = Machine.pdecWord := by
  have he : encode .pdec = .request w := encode_of_decodeRequest h
  cases he
  rfl

/-- A packet row is encoded by a packet word (R51). -/
theorem encode_of_format_PKT {i : Instr} (h : i.format = .PKT) : ∃ P, encode i = .packet P := by
  cases i <;> cases h <;> exact ⟨_, rfl⟩

/-- No request word decodes to a packet row (R47, R51). -/
theorem format_ne_PKT_of_decodeRequest {w : RequestWord} {i : Instr} (h : decodeRequest w = .ok i) :
    i.format ≠ .PKT := by
  intro hi
  obtain ⟨P, hP⟩ := encode_of_format_PKT hi
  rw [encode_of_decodeRequest h] at hP
  cases hP

end Sys2Proof

namespace Sys2Proof.Machine

/-! ### What an instruction answers -/

/-- Whatever an instruction does, it takes nothing from what is pending and gives one response: an error's value is zero,
and `BADCRC` comes with a checksum that is not zero, from `PDEC` or a packet row (R49, R50). -/
theorem Effect.answersOnce {i : Instr} {s t : State} (h : Effect i s t) :
    t.pending = s.pending ∧ ∃ c v, s.answersWith t c v ∧ (c.isError = true → v = 0) ∧
      (c = .badcrc → (i = .pdec ∨ i.format = .PKT) ∧ v ≠ 0) := by
  cases h with
  | error c hc =>
    refine ⟨rfl, c, 0, rfl, fun _ => rfl, fun hb => ?_⟩
    subst hb
    cases hc
  | reject tag q hi hc =>
    refine ⟨rfl, .badcrc, checksum q s.len.toNat, rfl, nofun, fun _ => ⟨?_, hc⟩⟩
    exact hi.imp_left fun ⟨hpdec, _⟩ => hpdec
  | _ => exact ⟨rfl, .ok, _, rfl, nofun, nofun⟩

theorem exec_pending {i : Instr} {s t : State} (h : exec i s = .next t) : t.pending = s.pending :=
  (exec_effect h).answersOnce.1

/-! ### The step, one equation per kind of event -/

theorem step_idle {s : State} (hp : s.pending = []) : step s = .next s := by
  simp only [step, State.nextEvent_nil hp, State.idle]

theorem step_reset {s : State} {rest : List HostEvent} (hp : s.pending = .reset :: rest) :
    step s = .next (State.takeReset { s with pending := rest }) := by
  simp only [step, State.nextEvent_cons hp]

theorem step_decoded {s : State} {w : RequestWord} {rest : List HostEvent} {i : Instr}
    (hp : s.pending = .request w :: rest) (hd : decodeRequest w = .ok i) :
    step s = exec i { s with pending := rest } := by
  simp only [step, State.nextEvent_cons hp, hd]

theorem step_illegal {s : State} {w : RequestWord} {rest : List HostEvent} {e : DecodeError}
    (hp : s.pending = .request w :: rest) (hd : decodeRequest w = .error e) :
    step s = .next (State.afterError { s with pending := rest } .eIllegal) := by
  simp only [step, State.nextEvent_cons hp, hd, State.rejectRequest, State.raise_eq_afterError, Err.code]

/-- Settles O5, by the equation of the step for each kind of event. -/
theorem stepRunsTheDecodedRequest : Obligations.StepRunsTheDecodedRequest := fun _ _ =>
  ⟨fun _ _ hp hd => step_decoded hp hd, fun _ _ hp hd => step_illegal hp hd, fun hp => step_reset hp,
    fun hp => step_idle hp⟩

/-- Settles O7, by the four things a step can do. -/
theorem stepAlwaysAnswers : Obligations.StepAlwaysAnswers := by
  intro s
  rcases step_cases s with ⟨_, h⟩ | ⟨_, _, h⟩ | ⟨_, rest, i, _, _, h⟩ | ⟨_, _, _, _, _, h⟩
  · exact ⟨_, h⟩
  · exact ⟨_, h⟩
  · rw [h]
    exact exec_answers i { s with pending := rest }
  · exact ⟨_, h⟩

/-! ### Responses -/

/-- Settles O8: a word that decodes is answered by its instruction, any other by `E_ILLEGAL`. -/
theorem everyRequestGetsOneResponse : Obligations.EveryRequestGetsOneResponse := by
  intro s w rest hp
  cases hd : decodeRequest w with
  | ok i =>
    obtain ⟨t, ht⟩ := exec_answers i { s with pending := rest }
    obtain ⟨hpending, c, v, hanswer, herror, hbadcrc⟩ := (exec_effect ht).answersOnce
    refine ⟨t, c, v, (step_decoded hp hd).trans ht, hpending, hanswer, herror, fun hc => ?_⟩
    obtain ⟨rfl | hrow, hv⟩ := hbadcrc hc
    · exact ⟨eq_pdecWord_of_decodeRequest hd, hv⟩
    · exact absurd hrow (format_ne_PKT_of_decodeRequest hd)
  | error e => exact ⟨_, .eIllegal, 0, step_illegal hp hd, rfl, rfl, fun _ => rfl, nofun⟩

/-! ### Runs -/

/-- A run that begins with a step. -/
theorem run_succ_of_step {M : Host.Core} {s t : M.State} (h : M.step s = .next t) (k : Nat) :
    M.run (k + 1) s = M.run k t := by
  simp only [Host.Core.run, h]

/-- A run that ends with a step. -/
theorem run_succ_of_run {M : Host.Core} {k : Nat} {s u : M.State} (h : M.run k s = .next u) :
    M.run (k + 1) s = M.step u := by
  induction k generalizing s with
  | zero =>
    cases h
    cases hu : M.step u <;> simp only [Host.Core.run, hu]
  | succ k ih =>
    cases hs : M.step s with
    | next t =>
      rw [run_succ_of_step hs] at h ⊢
      exact ih h
    | fault r => simp [Host.Core.run, hs] at h
    | refused r => simp [Host.Core.run, hs] at h

/-- Settles O9, by induction on the words: O8 for the first, the rest from the state it leaves. -/
theorem everyRequestSequenceIsAnswered : Obligations.EveryRequestSequenceIsAnswered := by
  intro ws
  induction ws with
  | nil => exact fun s hp => ⟨s, [], rfl, hp, (List.append_nil _).symm, rfl⟩
  | cons w ws ih =>
    intro s hp
    obtain ⟨t, c, v, hstep, hpending, hanswer, -, -⟩ := everyRequestGetsOneResponse s w _ hp
    obtain ⟨u, rs, hrun, hempty, hresponses, hlength⟩ := ih t hpending
    refine ⟨u, { code := c, val := v } :: rs, (run_succ_of_step hstep ws.length).trans hrun, hempty, ?_, ?_⟩
    · rw [hresponses, show t.responses = _ from hanswer, List.append_assoc, List.singleton_append]
    · rw [List.length_cons, List.length_cons, hlength]

/-! ### Issue order

Nothing an instruction reads or writes depends on what is pending, so a request issued before a step is, after the step,
where it would be had it been issued then. -/

theorem State.memRead_issue (s : State) (w : RequestWord) (i : Byte) : (s.issue w).memRead i = s.memRead i :=
  State.memRead_congr (fun _ => rfl) i

theorem State.memReadAll_issue (s : State) (w : RequestWord) (is : List Byte) :
    (s.issue w).memReadAll is = s.memReadAll is := by
  induction is with
  | nil => rfl
  | cons i is ih => simp only [State.memReadAll, State.memRead_issue, ih]

theorem State.memReadPacket_issue (s : State) (w : RequestWord) : (s.issue w).memReadPacket = s.memReadPacket := by
  simp only [State.memReadPacket, State.memRead_issue]

theorem State.deliver_issue (s : State) (w : RequestWord) (d : Decoded) :
    (s.issue w).deliver d = (s.deliver d).issue w := by
  cases d <;> rfl

/-- An operation that may raise, then goes on with a function that does not look at what is pending. -/
theorem State.attempt_bind_issue {α : Type} {s t : State} {w : RequestWord} {x : Except Err α} {f : α → State → State}
    (hf : ∀ a, f a (s.issue w) = (f a s).issue w) (h : s.attempt (x >>= fun a => pure (f a s)) = .next t) :
    (s.issue w).attempt (x >>= fun a => pure (f a (s.issue w))) = .next (t.issue w) := by
  cases x with
  | ok a =>
    cases h
    exact congrArg Host.Outcome.next (hf a)
  | error e =>
    cases h
    rfl

theorem State.runPacket_issue {s t : State} {tag : BitVec 4} {k : Kind} {p : PacketFields} (w : RequestWord)
    (h : s.runPacket tag k p = .next t) : (s.issue w).runPacket tag k p = .next (t.issue w) := by
  cases h
  exact congrArg Host.Outcome.next (State.deliver_issue s w _)

/-- An instruction runs as if a word issued before it had been issued after it. -/
theorem exec_issue {i : Instr} {s t : State} (w : RequestWord) (h : exec i s = .next t) :
    exec i (s.issue w) = .next (t.issue w) := by
  cases i
  case pclr | cinit | cbyte | crd | rev8 | cmb12 | cmb12h | cmb16 | msk7 | eclr =>
    cases h
    rfl
  case pstb j d =>
    simp only [exec, execPstb, State.memWrite] at h ⊢
    cases hj : byteIndex j with
    | ok a =>
      rw [hj] at h
      cases h
      rfl
    | error e =>
      rw [hj] at h
      cases h
      rfl
  case pldb j => exact State.attempt_bind_issue (f := fun (v : Byte) s => s.respond .ok (v.setWidth 16)) (fun _ => rfl) h
  case pcrc =>
    simp only [exec, execPcrc, State.memReadPrefix, State.memReadAll_issue] at h ⊢
    exact State.attempt_bind_issue (f := fun bs s => s.respond .ok (crc16 bs)) (fun _ => rfl) h
  case ptag => exact State.attempt_bind_issue (f := fun v s => s.respond .ok ((tagOf v).setWidth 16)) (fun _ => rfl) h
  case pdec =>
    simp only [exec, execPdec, State.memReadPacket_issue] at h ⊢
    exact State.attempt_bind_issue (f := fun q s => s.deliver (decodeRawPacket q s.len.toNat))
      (fun q => State.deliver_issue s w _) h
  case rdr r => exact State.attempt_bind_issue (f := fun v s => s.respond .ok v) (fun _ => rfl) h
  case wrc r v =>
    simp only [exec, execWrc] at h ⊢
    cases hr : writableRegister r with
    | ok _ =>
      rw [hr] at h
      exact State.attempt_bind_issue (x := checksumRange v)
        (f := fun n s => State.respond { s.invalidate with len := n } .ok (v.setWidth 16)) (fun _ => rfl) h
    | error e =>
      rw [hr] at h
      cases h
      rfl
  all_goals exact State.runPacket_issue w h

/-- While events are pending, a step takes the first of them, and a word issued before the step stays for later. -/
theorem step_issue {s : State} {e : HostEvent} {rest : List HostEvent} (hp : s.pending = e :: rest) (w : RequestWord) :
    ∃ t, step s = .next t ∧ t.pending = rest ∧ step (s.issue w) = .next (t.issue w) := by
  have hp' : (s.issue w).pending = e :: (rest ++ [.request w]) := by
    rw [State.issue_pending, hp, List.cons_append]
  cases e with
  | reset => exact ⟨_, step_reset hp, rfl, step_reset hp'⟩
  | request v =>
    cases hd : decodeRequest v with
    | ok i =>
      obtain ⟨t, ht⟩ := exec_answers i { s with pending := rest }
      exact ⟨t, (step_decoded hp hd).trans ht, exec_pending ht, (step_decoded hp' hd).trans (exec_issue w ht)⟩
    | error e => exact ⟨_, step_illegal hp hd, rfl, step_illegal hp' hd⟩

/-- As many steps as events are pending take exactly those, with or without one more word issued. -/
theorem run_pending_issue (s : State) (w : RequestWord) :
    ∃ u, core.run s.pending.length s = .next u ∧ u.pending = [] ∧
      core.run s.pending.length (s.issue w) = .next (u.issue w) := by
  induction hp : s.pending generalizing s with
  | nil => exact ⟨s, rfl, hp, rfl⟩
  | cons e rest ih =>
    obtain ⟨t, hstep, hpending, hstep'⟩ := step_issue hp w
    obtain ⟨u, hrun, hempty, hrun'⟩ := ih t hpending
    exact ⟨u, (run_succ_of_step hstep rest.length).trans hrun, hempty,
      (run_succ_of_step hstep' rest.length).trans hrun'⟩

/-- A word issued to a block with nothing pending is all that is pending. -/
theorem State.issue_of_pending_nil {u : State} (hp : u.pending = []) (w : RequestWord) :
    u.issue w = { u with pending := [.request w] } := by
  simp only [State.issue, hp, List.nil_append]

/-- Settles O58: the run over what was pending, then the one step that takes the new word. -/
theorem requestsAreTakenInIssueOrder : Obligations.RequestsAreTakenInIssueOrder := by
  intro s w
  obtain ⟨u, hrun, hempty, hrun'⟩ := run_pending_issue s w
  rw [State.issue_of_pending_nil hempty] at hrun'
  exact ⟨u, hrun, hempty, hrun', run_succ_of_run hrun'⟩

end Sys2Proof.Machine

/-! PROOFS of the family 10_state.md: what only some instructions write (O19, O20, O21), the state after `RESET` (O11,
O13), and the invariants of R17 along every step (O10). The lemmas come first: the change of each piece of state by an
instruction, then the invariants under each change. -/

namespace Sys2Proof.Machine

/-! ### Which instruction writes which piece of state -/

/-- What an instruction can do to `ACC` (R14). -/
theorem Effect.acc_cases {i : Instr} {s t : State} (h : Effect i s t) :
    t.acc = s.acc ∨ (i = .cinit ∧ t.acc = 0) ∨ ∃ d, i = .cbyte d ∧ t.acc = crc16Byte s.acc d := by
  cases h with
  | cinit hi => exact .inr (.inl ⟨hi, rfl⟩)
  | cbyte d hi => exact .inr (.inr ⟨d, hi, rfl⟩)
  | _ => exact .inl rfl

/-- What an instruction can do to the packet buffer (R12). -/
theorem Effect.pkt_cases {i : Instr} {s t : State} (h : Effect i s t) :
    t.pkt = s.pkt ∨ (i = .pclr ∧ t.pkt = []) ∨
      ∃ j d, i = .pstb j d ∧ j.toNat < 10 ∧ t.pkt = s.pkt.write j.toNat d := by
  cases h with
  | pclr hi => exact .inr (.inl ⟨hi, rfl⟩)
  | pstb j d hi hj => exact .inr (.inr ⟨j, d, hi, hj, rfl⟩)
  | _ => exact .inl rfl

/-- A byte in the legal range keeps its value in the four bits of `CFG.LEN` (R15). -/
theorem toNat_setWidth_of_legalRange {v : Byte} (hv : 1 ≤ v.toNat ∧ v.toNat ≤ 10) :
    (v.setWidth 4).toNat = v.toNat :=
  (checksumRange_toNat (checksumRange_legal hv)).1

/-- What an instruction can do to `CFG.LEN` (R15). -/
theorem Effect.len_cases {i : Instr} {s t : State} (h : Effect i s t) :
    t.len = s.len ∨ ∃ v, i = .wrc 1 v ∧ 1 ≤ v.toNat ∧ v.toNat ≤ 10 ∧ t.len.toNat = v.toNat := by
  cases h with
  | wrc v hi hv => exact .inr ⟨v, hi, hv.1, hv.2, toNat_setWidth_of_legalRange hv⟩
  | _ => exact .inl rfl

/-- Settles O19: the two writers by their own meaning, every other instruction by what it can do to `ACC`. -/
theorem accumulatorWrittenOnlyByCinitAndCbyte : Obligations.AccumulatorWrittenOnlyByCinitAndCbyte := by
  intro i s t h
  refine ⟨?cinit, ?cbyte, ?other⟩
  case cinit =>
    rintro rfl
    cases h
    rfl
  case cbyte =>
    rintro d rfl
    cases h
    rfl
  case other =>
    intro hcinit hcbyte
    rcases (exec_effect h).acc_cases with hacc | ⟨hi, _⟩ | ⟨d, hi, _⟩
    · exact hacc
    · exact absurd hi hcinit
    · exact absurd hi (hcbyte d)

/-- Settles O20: a cell that changed was cleared, or it is the one cell a `PSTB` writes. -/
theorem packetBytesWrittenOnlyByPstbAndPclr : Obligations.PacketBytesWrittenOnlyByPstbAndPclr := by
  intro i s t a h hne
  rcases (exec_effect h).pkt_cases with hpkt | ⟨hi, hpkt⟩ | ⟨j, d, hi, _, hpkt⟩
  · exact absurd (by rw [hpkt]) hne
  · exact .inl ⟨hi, by rw [hpkt, Memory.read_nil]⟩
  · have ha : a = j.toNat := by
      by_contra hother
      exact hne (by rw [hpkt, Memory.read_write_other s.pkt d hother])
    subst ha
    exact .inr ⟨j, d, hi, rfl, by rw [hpkt, Memory.read_write_same]⟩

/-- Settles O21, by what an instruction can do to `CFG.LEN`. -/
theorem checksumRangeWrittenOnlyByWrc : Obligations.ChecksumRangeWrittenOnlyByWrc := by
  intro i s t h hne
  exact (exec_effect h).len_cases.resolve_left hne

/-! ### The invariants of R17 under each change of state -/

theorem State.Inv.withPending {s : State} (h : s.Inv) (rest : List HostEvent) :
    State.Inv { s with pending := rest } := { h with }

/-- `ACC` and the responses are in no clause of R17. -/
theorem State.Inv.afterAnswer {s : State} (h : s.Inv) (acc : Word16) (v : Word16) :
    (State.afterAnswer { s with acc := acc } v).Inv := { h with }

theorem State.Inv.afterError {s : State} (h : s.Inv) {c : Code} (hc : c.isError = true) : (s.afterError c).Inv :=
  { h with
    noError := nofun
    error := fun _ => by
      cases herr : s.status.err with
      | false => simpa [State.afterError, herr] using Code.bits_of_isError hc
      | true => simpa [State.afterError, herr] using h.error herr }

theorem State.Inv.afterClearError {s : State} (h : s.Inv) (v : Word16) :
    (State.afterAnswer { s with status := s.status.clearError } v).Inv :=
  { h with
    noError := fun _ => rfl
    error := nofun }

/-- With no result left, any buffer in canonical form and any legal range will do: this is why every operation that
changes one of them takes the results back (R159). -/
theorem State.Inv.afterWithoutResults {s : State} (h : s.Inv) {m : Memory} {n : BitVec 4} (hm : m.wf = true)
    (hn : 1 ≤ n.toNat ∧ n.toNat ≤ 10) (v : Word16) :
    (State.afterAnswer { s.withoutResults with pkt := m, len := n } v).Inv where
  memory := hm
  range := hn
  notDone := fun _ => ⟨rfl, rfl, rfl⟩
  done := nofun
  accepted := nofun
  rejected := nofun
  noError := h.noError
  error := h.error

theorem State.Inv.afterAccept {s : State} (h : s.Inv) {q : RawPacket} (hq : s.pkt.Holds q)
    (hc : checksum q s.len.toNat = 0) :
    (s.afterAccept (tagOf q.b0) (kindOf (tagOf q.b0)).bits (fieldValue (kindOf (tagOf q.b0)) q.b3 q.b4) q.b1 q.b2).Inv :=
  { h with
    notDone := nofun
    done := fun _ => ⟨rfl, hq.pv, q, hq, rfl, congrArg some hc.symm⟩
    accepted := fun _ => ⟨rfl, q, hq, rfl, rfl, rfl, rfl⟩
    rejected := nofun }

theorem State.Inv.afterReject {s : State} (h : s.Inv) {q : RawPacket} (hq : s.pkt.Holds q)
    (hc : checksum q s.len.toNat ≠ 0) : (s.afterReject (tagOf q.b0) (checksum q s.len.toNat)).Inv :=
  { h with
    notDone := nofun
    done := fun _ => ⟨rfl, hq.pv, q, hq, rfl, rfl⟩
    accepted := nofun
    rejected := fun _ => ⟨⟨_, rfl, hc⟩, rfl, rfl, rfl, rfl⟩ }

/-- Every request operation keeps the invariants. A packet row run by itself need not: its results are of the packet it
carries, not of the buffer (log entry 1). -/
theorem State.Inv.ofEffect {i : Instr} {s t : State} (h : s.Inv) (hi : i.format ≠ .PKT) (he : Effect i s t) :
    t.Inv := by
  cases he with
  | error c hc => exact h.afterError hc
  | answer v => exact h.afterAnswer s.acc v
  | pclr => exact h.afterWithoutResults Memory.wf_empty h.range 0
  | pstb j d _ hj => exact h.afterWithoutResults (Memory.wf_write d hj h.memory) h.range 0
  | cinit => exact h.afterAnswer 0 0
  | cbyte d => exact h.afterAnswer (crc16Byte s.acc d) (crc16Byte s.acc d)
  | wrc v _ hv =>
    have hn : 1 ≤ (v.setWidth 4).toNat ∧ (v.setWidth 4).toNat ≤ 10 := by rwa [toNat_setWidth_of_legalRange hv]
    exact h.afterWithoutResults h.memory hn (v.setWidth 16)
  | eclr => exact h.afterClearError 0
  | accept tag k q hrow hc =>
    obtain ⟨_, hq, rfl, rfl⟩ := hrow.resolve_right hi
    exact h.afterAccept hq hc
  | reject tag q hrow hc =>
    obtain ⟨_, hq, rfl⟩ := hrow.resolve_right hi
    exact h.afterReject hq hc

/-! ### `RESET` -/

/-- The reset values meet every clause: no result, no error, an empty buffer, the range 8 (R27). -/
theorem State.Inv.takeReset (s : State) : s.takeReset.Inv where
  memory := Memory.reset_wf
  range := by simp
  notDone := fun _ => ⟨rfl, rfl, rfl⟩
  done := nofun
  accepted := nofun
  rejected := nofun
  noError := fun _ => rfl
  error := nofun

theorem State.Inv.reset : State.reset.Inv := State.Inv.takeReset State.reset

/-- Settles O11, by the equation of the step that takes a `RESET` event. -/
theorem resetMeetsTheRegisterInvariants : Obligations.ResetMeetsTheRegisterInvariants :=
  ⟨State.Inv.reset, fun _ _ hp => ⟨_, step_reset hp, State.Inv.takeReset _⟩⟩

/-- An empty buffer has no valid bit set (R13). -/
theorem Memory.pv_nil : Memory.pv [] = 0 := by decide

/-- After `RESET`, `STATUS` reads as 0x0000 (R25, R27). -/
theorem Status.word_reset : State.reset.status.word = 0 := by decide

/-- Settles O13: `RESET` leaves the values of `State.reset` and the host's lists; the values are those of R27. -/
theorem resetLeavesTheStatedValues : Obligations.ResetLeavesTheStatedValues := by
  intro s rest hp
  refine ⟨_, step_reset hp, ?values, rfl, rfl⟩
  rintro u (rfl | rfl) <;>
    exact ⟨Memory.read_nil, Memory.pv_nil, rfl, rfl, Status.word_reset, rfl, rfl, rfl, rfl, rfl, rfl, rfl, rfl, rfl, rfl, rfl⟩

/-! ### Every step -/

/-- Settles O10: by the four things a step can do, and for a request that decodes, which is never a packet row, by the
ten things its instruction can do. -/
theorem stepKeepsTheRegisterInvariants : Obligations.StepKeepsTheRegisterInvariants := by
  refine ⟨State.Inv.reset, fun s t hinv hstep => ?_⟩
  rcases step_cases s with ⟨_, h⟩ | ⟨rest, hp, _⟩ | ⟨w, rest, i, _, hd, h⟩ | ⟨w, rest, e, _, _, h⟩
  · cases h.symm.trans hstep
    exact hinv
  · cases (step_reset hp).symm.trans hstep
    exact State.Inv.takeReset _
  · exact (hinv.withPending rest).ofEffect (format_ne_PKT_of_decodeRequest hd) (exec_effect (h.symm.trans hstep))
  · cases h.symm.trans hstep
    exact (hinv.withPending rest).afterError rfl

end Sys2Proof.Machine

/-! PROOF for the family 20_memory.md: every instruction keeps the packet buffer's canonical form (O12). -/

namespace Sys2Proof.Machine

/-- The rising form lists indices of the packet alone, wherever it starts. -/
theorem Memory.read_of_risingFrom {lo a : Nat} (ha : 10 ≤ a) {m : Memory} (hm : Memory.risingFrom lo m = true) :
    m.read a = none := by
  induction m generalizing lo with
  | nil => rfl
  | cons c m ih =>
    obtain ⟨k, v⟩ := c
    simp only [Memory.risingFrom, Bool.and_eq_true, decide_eq_true_eq] at hm
    obtain ⟨⟨_, hk⟩, htail⟩ := hm
    rw [Memory.read_cons, if_neg (by omega), ih htail]

/-- No index from 10 up holds a byte in a canonical buffer (R30). -/
theorem Memory.read_of_wf {m : Memory} (hm : m.wf = true) {a : Nat} (ha : 10 ≤ a) : m.read a = none :=
  Memory.read_of_risingFrom ha hm

/-- Every instruction, the packet rows included, keeps the canonical form: one that touches the buffer empties it or
writes one cell of the packet. -/
theorem Effect.wf_pkt {i : Instr} {s t : State} (h : Effect i s t) (hs : s.pkt.wf = true) : t.pkt.wf = true := by
  rcases h.pkt_cases with hpkt | ⟨_, hpkt⟩ | ⟨j, d, _, hj, hpkt⟩ <;> rw [hpkt]
  · exact hs
  · exact Memory.wf_empty
  · exact Memory.wf_write d hj hs

/-- Settles O12: the canonical form is kept by every effect, and it shuts out the indices from 10 up. -/
theorem execKeepsThePacketBufferCanonical : Obligations.ExecKeepsThePacketBufferCanonical := by
  intro i s t hs h
  have ht : t.pkt.wf = true := (exec_effect h).wf_pkt hs
  exact ⟨ht, fun _ ha => Memory.read_of_wf ht ha⟩

end Sys2Proof.Machine

/-! PROOFS of the family 30_encoding.md: decoder and encoder (O1, O4), the legal request words (O2, O3), the packet rows
(O6, O36, O37, O38), operand values (O18), and the sequence of `DECODE` (O39). -/

namespace Sys2Proof

/-! ### Fields put together and cut out again -/

@[simp] theorem requestOp_requestWord (op a b : Byte) : requestOp (requestWord op a b) = op := by
  apply BitVec.eq_of_toNat_eq
  simp only [requestOp, extract_toNat, requestWord_toNat]
  omega

@[simp] theorem requestA_requestWord (op a b : Byte) : requestA (requestWord op a b) = a := by
  apply BitVec.eq_of_toNat_eq
  simp only [requestA, extract_toNat, requestWord_toNat]
  omega

@[simp] theorem requestB_requestWord (op a b : Byte) : requestB (requestWord op a b) = b := by
  apply BitVec.eq_of_toNat_eq
  simp only [requestB, extract_toNat, requestWord_toNat]
  omega

/-- Decoding a request word is decoding its fields (R60). -/
theorem decodeRequest_requestWord (op a b : Byte) : decodeRequest (requestWord op a b) = decodeFields op a b := by
  simp only [decodeRequest, requestOp_requestWord, requestA_requestWord, requestB_requestWord]

@[simp] theorem packetTag_packetWord (tag : BitVec 4) (p : PacketFields) : packetTag (packetWord tag p) = tag := by
  apply BitVec.eq_of_toNat_eq
  simp only [packetTag, extract_toNat, packetWord_toNat]
  omega

@[simp] theorem packetFields_packetWord (tag : BitVec 4) (p : PacketFields) :
    packetFields (packetWord tag p) = p := by
  obtain ⟨x0, ws, wd, b3, b4, x5, ck⟩ := p
  simp only [packetFields, PacketFields.mk.injEq]
  refine ⟨?_, ?_, ?_, ?_, ?_, ?_, ?_⟩ <;>
    · apply BitVec.eq_of_toNat_eq
      simp only [extract_toNat, packetWord_toNat]
      omega

/-- A packet word is its tag and its fields put together (R51). -/
theorem packetWord_fields (P : PacketWord) : packetWord (packetTag P) (packetFields P) = P := by
  apply BitVec.eq_of_toNat_eq
  have := P.isLt
  simp only [packetWord_toNat, packetTag, packetFields, extract_toNat]
  omega

theorem decodePacket_packetWord (tag : BitVec 4) (p : PacketFields) :
    decodePacket (packetWord tag p) = packetRow tag p := by
  simp only [decodePacket, packetTag_packetWord, packetFields_packetWord]

/-! ### Both spaces -/

/-- The row of a tag is encoded with that tag (R51, R52), at each of the sixteen tags. -/
theorem encode_packetRow (tag : BitVec 4) (p : PacketFields) :
    encode (packetRow tag p) = .packet (packetWord tag p) := by
  obtain ⟨n, hn⟩ := tag
  interval_cases n <;> rfl

/-- Whatever is encoded decodes to itself (R60, R61). -/
theorem decode_encode (i : Instr) : decode (encode i) = .ok i := by
  cases i
  case pclr | pstb | pldb | cinit | cbyte | crd | pcrc | ptag | pdec | rev8 | cmb12 | cmb12h | cmb16 | msk7 | rdr |
      wrc | eclr => exact decodeRequest_requestWord _ _ _
  all_goals exact congrArg Except.ok (decodePacket_packetWord _ _)

theorem encode_of_decodePacket (P : PacketWord) : encode (decodePacket P) = .packet P := by
  rw [decodePacket, encode_packetRow, packetWord_fields]

theorem encode_of_decode {e : Encoded} {i : Instr} (h : decode e = .ok i) : encode i = e := by
  cases e with
  | request w => exact encode_of_decodeRequest h
  | packet P =>
    cases h
    exact encode_of_decodePacket P

/-- Settles O1, by the two directions over both spaces. -/
theorem decodeAndEncodeAreInverse : Obligations.DecodeAndEncodeAreInverse :=
  ⟨decode_encode, fun _ _ => encode_of_decode⟩

theorem decodeRequest_of_encode {i : Instr} {w : RequestWord} (h : encode i = .request w) :
    decodeRequest w = .ok i := by
  have hd := decode_encode i
  rwa [h] at hd

theorem decodePacket_of_encode {i : Instr} {P : PacketWord} (h : encode i = .packet P) : decodePacket P = i := by
  have hd := decode_encode i
  rw [h] at hd
  exact Except.ok.inj hd

/-- Settles O4: each word is the encoding of the operation the spec names, so it decodes to it. -/
theorem specWordsDecode : Obligations.SpecWordsDecode :=
  ⟨decodeRequest_of_encode rfl, decodeRequest_of_encode rfl, decodeRequest_of_encode rfl, decodeRequest_of_encode rfl,
    decodeRequest_of_encode rfl, decodeRequest_of_encode rfl, decodeRequest_of_encode rfl, decodeRequest_of_encode rfl,
    decodeRequest_of_encode rfl, decodePacket_of_encode rfl⟩

/-! ### The legal forms of a request word -/

/-- The operation codes of format `Z` (R46, R47). -/
def opsZ : List Byte := [0x10, 0x20, 0x22, 0x23, 0x30, 0x31, 0x52]

/-- The operation codes of format `A` (R46, R47). -/
def opsA : List Byte := [0x12, 0x21, 0x40, 0x44, 0x50]

/-- The operation codes of format `AB` (R46, R47). -/
def opsAB : List Byte := [0x11, 0x41, 0x42, 0x43, 0x51]

/-- No code has two formats. -/
theorem not_mem_ops_of_mem_opsZ : ∀ op ∈ opsZ, op ∉ opsA ∧ op ∉ opsAB := by decide

theorem not_mem_opsAB_of_mem_opsA : ∀ op ∈ opsA, op ∉ opsAB := by decide

theorem decodeZ_isSome (op a b : Byte) (x : Instr) :
    (decodeZ op a b x).toOption.isSome = true ↔ a = 0 ∧ b = 0 := by
  unfold decodeZ
  split
  next hab => exact iff_of_true rfl hab
  next hab => exact iff_of_false nofun hab

theorem decodeA_isSome (op a b : Byte) (x : Instr) : (decodeA op a b x).toOption.isSome = true ↔ b = 0 := by
  unfold decodeA
  split
  next hb => exact iff_of_true rfl hb
  next hb => exact iff_of_false nofun hb

/-- The legal forms of R54, by the fields of the word. -/
theorem decodeFields_isSome (op a b : Byte) :
    (decodeFields op a b).toOption.isSome = true ↔
      (op ∈ opsZ ∧ a = 0 ∧ b = 0) ∨ (op ∈ opsA ∧ b = 0) ∨ op ∈ opsAB := by
  unfold decodeFields
  split
  case h_1 | h_4 | h_6 | h_7 | h_8 | h_9 | h_17 =>
    simp [decodeZ_isSome, opsZ, opsA, opsAB]
  case h_3 | h_5 | h_10 | h_14 | h_15 =>
    simp [decodeA_isSome, opsZ, opsA, opsAB]
  case h_2 | h_11 | h_12 | h_13 | h_16 =>
    simp [opsZ, opsA, opsAB, Except.toOption]
  case h_18 =>
    simp_all [opsZ, opsA, opsAB, Except.toOption]

theorem decodeRequest_error_iff (w : RequestWord) :
    (∃ e, decodeRequest w = .error e) ↔ ¬ (decodeRequest w).toOption.isSome = true := by
  cases decodeRequest w <;> simp [Except.toOption]

/-- The three formats share out the seventeen codes of R47. -/
theorem mem_requestOps_iff (op : Byte) :
    op ∈ [0x10#8, 0x11#8, 0x12#8, 0x20#8, 0x21#8, 0x22#8, 0x23#8, 0x30#8, 0x31#8, 0x40#8, 0x41#8, 0x42#8, 0x43#8,
      0x44#8, 0x50#8, 0x51#8, 0x52#8] ↔ op ∈ opsZ ∨ op ∈ opsA ∨ op ∈ opsAB := by
  rw [← List.mem_append, ← List.mem_append]
  exact List.Perm.mem_iff (by decide)

/-- Settles O2: the legal forms of R54 negated, with each operation code in one format, and the step on a word that
fails. -/
theorem illegalRequestWordsAnswerIllegal : Obligations.IllegalRequestWordsAnswerIllegal := by
  refine ⟨fun w => ?_, ⟨_, rfl⟩, ⟨_, rfl⟩, fun s w rest e hp hd => Machine.step_illegal hp hd⟩
  change _ ↔ _ ∨ (requestOp w ∈ opsZ ∧ _) ∨ (requestOp w ∈ opsA ∧ _)
  rw [mem_requestOps_iff, decodeRequest_error_iff, decodeRequest, decodeFields_isSome]
  have hZ := not_mem_ops_of_mem_opsZ (requestOp w)
  have hA := not_mem_opsAB_of_mem_opsA (requestOp w)
  tauto

/-- A count over the numbers of `n` bits is a count over the words. -/
theorem card_filter_ofNat (n : Nat) (p : BitVec n → Bool) :
    ((Finset.range (2 ^ n)).filter fun k => p (BitVec.ofNat n k) = true).card =
      ∑ w : BitVec n, if p w = true then 1 else 0 := by
  rw [Finset.card_filter]
  refine Finset.sum_bij' (fun k _ => BitVec.ofNat n k) (fun w _ => w.toNat) ?_ ?_ ?_ ?_ ?_
  · exact fun k _ => Finset.mem_univ _
  · exact fun w _ => Finset.mem_range.mpr w.isLt
  · exact fun k hk => Nat.mod_eq_of_lt (Finset.mem_range.mp hk)
  · exact fun w _ => (BitVec.ofNat_toNat n w).trans (BitVec.setWidth_eq w)
  · exact fun k _ => rfl

/-- A request word and its three fields determine each other (R45). -/
def requestFieldsEquiv : Byte × Byte × Byte ≃ RequestWord where
  toFun f := requestWord f.1 f.2.1 f.2.2
  invFun w := (requestOp w, requestA w, requestB w)
  left_inv f := by simp
  right_inv w := requestWord_fields w

/-- How many legal words an operation code has (R54): format `Z` leaves no field open, `A` one, `AB` two. -/
def legalWords (op : Byte) : Nat :=
  (if op ∈ opsZ then 1 else 0) + (if op ∈ opsA then 2 ^ 8 else 0) + (if op ∈ opsAB then 2 ^ 16 else 0)

theorem card_byte : Fintype.card Byte = 256 :=
  (Fintype.card_congr BitVec.equivFin.toEquiv).trans (Fintype.card_fin _)

theorem sum_legal_of_op (op : Byte) :
    (∑ f : Byte × Byte, if (decodeFields op f.1 f.2).toOption.isSome = true then 1 else 0) = legalWords op := by
  simp only [decodeFields_isSome, Fintype.sum_prod_type, legalWords]
  by_cases hZ : op ∈ opsZ
  · simp [hZ, not_mem_ops_of_mem_opsZ op hZ, ite_and]
  by_cases hA : op ∈ opsA
  · simp [hZ, hA, not_mem_opsAB_of_mem_opsA op hA, card_byte]
  by_cases hAB : op ∈ opsAB
  · simp [hZ, hA, hAB, card_byte]
  · simp [hZ, hA, hAB]

theorem sum_ite_mem_ops {l : List Byte} (hl : l.Nodup) (n : Nat) :
    (∑ op : Byte, if op ∈ l then n else 0) = l.length * n := by
  simp only [← List.mem_toFinset]
  rw [Finset.sum_ite_mem, Finset.univ_inter, Finset.sum_const, List.toFinset_card_of_nodup hl, smul_eq_mul]

/-- R54: seven codes with one legal word, five with 2^8 and five with 2^16. -/
theorem sum_legalWords : ∑ op : Byte, legalWords op = 7 * 1 + 5 * 2 ^ 8 + 5 * 2 ^ 16 := by
  simp only [legalWords, Finset.sum_add_distrib]
  rw [sum_ite_mem_ops (by decide), sum_ite_mem_ops (by decide), sum_ite_mem_ops (by decide)]
  rfl

/-- Settles O3: a sum over the operation codes of the legal words each has. -/
theorem legalRequestWordCount : Obligations.LegalRequestWordCount := by
  unfold Obligations.LegalRequestWordCount
  rw [card_filter_ofNat 24 fun w => (decodeRequest w).toOption.isSome, ← requestFieldsEquiv.sum_comp,
    Fintype.sum_prod_type]
  simp only [requestFieldsEquiv, Equiv.coe_fn_mk, decodeRequest_requestWord, sum_legal_of_op]
  exact sum_legalWords

/-! ### The ten bytes of a packet word -/

/-- The tag of the ten bytes is the tag of the word (R51, R85). -/
theorem tagOf_raw (tag : BitVec 4) (p : PacketFields) : Machine.tagOf (p.raw tag).b0 = tag :=
  BitVec.extractLsb'_append_eq_left

/-- The ten bytes of a packet, put together, are its word (R51). -/
theorem RawPacket.word_raw (tag : BitVec 4) (p : PacketFields) : (p.raw tag).word = packetWord tag p := by
  have hx5 : p.x5.toNat =
      p.x5.toNat / 2 ^ 16 % 2 ^ 8 * 2 ^ 16 + p.x5.toNat / 2 ^ 8 % 2 ^ 8 * 2 ^ 8 + p.x5.toNat / 2 ^ 0 % 2 ^ 8 := by
    omega
  have hck : p.ck.toNat = p.ck.toNat / 2 ^ 8 % 2 ^ 8 * 2 ^ 8 + p.ck.toNat / 2 ^ 0 % 2 ^ 8 := by omega
  apply BitVec.eq_of_toNat_eq
  rw [packetWord_toNat, hx5, hck]
  simp only [RawPacket.word, PacketFields.raw, toNat_append_add, extract_toNat]
  ring

theorem RawPacket.word_ofWord (P : PacketWord) : (RawPacket.ofWord P).word = P := by
  rw [RawPacket.ofWord, RawPacket.word_raw, packetWord_fields]

end Sys2Proof

namespace Sys2Proof.Machine

/-! ### The packet rows -/

/-- The row of a tag runs the packet with that tag and its layout (R52, R53). -/
theorem exec_packetRow (tag : BitVec 4) (p : PacketFields) (s : State) :
    exec (packetRow tag p) s = s.runPacket tag (kindOf tag) p := by
  obtain ⟨n, hn⟩ := tag
  interval_cases n <;> rfl

/-- `PDEC` on a loaded buffer delivers the decode of the packet in it (R95). -/
theorem exec_pdec_of_holds {s : State} {q : RawPacket} (h : s.pkt.Holds q) :
    exec .pdec s = .next (s.deliver (decodeRawPacket q s.len.toNat)) := by
  simp only [exec, execPdec, State.memReadPacket_holds h]
  rfl

/-- Settles O6: `PDEC` on a loaded buffer and the row of the packet word are one decode. -/
theorem pdecRunsThePacketInTheBuffer : Obligations.PdecRunsThePacketInTheBuffer := by
  refine ⟨RawPacket.word_ofWord, fun s rest P hp hq => ?_⟩
  have hq' : State.pkt { s with pending := rest } |>.Holds (RawPacket.ofWord P) := hq
  rw [step_decoded hp rfl, exec_pdec_of_holds hq', decodePacket, exec_packetRow, decodeRawPacket, RawPacket.ofWord,
    tagOf_raw, State.runPacket]

/-! ### The field combines as numbers -/

/-- A byte moved up by `k` bits and joined with a smaller one, as a number. -/
theorem toNat_shiftLeft_or {n m l k : Nat} {x : BitVec m} {y : BitVec l} (hx : x.toNat * 2 ^ k < 2 ^ n)
    (hy : y.toNat < 2 ^ k) (hk : k ≤ n) :
    (x.setWidth n <<< k ||| y.setWidth n).toNat = x.toNat * 2 ^ k + y.toNat := by
  have hxn : x.toNat < 2 ^ n := Nat.lt_of_le_of_lt (Nat.le_mul_of_pos_right _ (by positivity)) hx
  have hyn : y.toNat < 2 ^ n := Nat.lt_of_lt_of_le hy (Nat.pow_le_pow_right (by decide) hk)
  rw [BitVec.toNat_or, BitVec.toNat_shiftLeft, BitVec.toNat_setWidth, BitVec.toNat_setWidth, Nat.mod_eq_of_lt hxn,
    Nat.mod_eq_of_lt hyn, Nat.shiftLeft_eq, Nat.mod_eq_of_lt hx, ← Nat.shiftLeft_eq,
    Nat.shiftLeft_add_eq_or_of_lt hy]

theorem toNat_shiftRight_four (x : Byte) : (x >>> 4).toNat = x.toNat / 16 := by
  rw [BitVec.toNat_ushiftRight, Nat.shiftRight_eq_div_pow]

theorem cmb16_toNat (b3 b4 : Byte) : (cmb16 b3 b4).toNat = b3.toNat * 256 + b4.toNat :=
  toNat_shiftLeft_or (by omega) (by omega) (by decide)

theorem cmb12_toNat (b3 b4 : Byte) : (cmb12 b3 b4).toNat = b3.toNat * 16 + b4.toNat / 16 := by
  have h := toNat_shiftRight_four b4
  rw [← h]
  exact toNat_shiftLeft_or (by omega) (by omega) (by decide)

theorem cmb12h_toNat (b3 b4 : Byte) : (cmb12h b3 b4).toNat = b3.toNat + b4.toNat / 16 * 256 := by
  have h := toNat_shiftRight_four b4
  rw [← h, cmb12h, BitVec.or_comm, Nat.add_comm]
  exact toNat_shiftLeft_or (by omega) (by omega) (by decide)

theorem msk7_toNat (b3 : Byte) : (msk7 b3).toNat = b3.toNat % 128 := by
  rw [msk7, BitVec.toNat_setWidth, BitVec.toNat_and]
  exact (congrArg (· % 128) (Nat.and_two_pow_sub_one_eq_mod b3.toNat 7)).trans (Nat.mod_mod _ _)

/-- The number a layout makes of the two field bytes (R53). -/
def Kind.fieldNumber : Kind → Nat → Nat → Nat
  | .temp, b3, b4 => b3 * 256 + b4
  | .hum, b3, b4 => b3 + b4 / 16 * 256
  | .rain, b3, _ => b3 % 128
  | .generic, b3, b4 => b3 * 16 + b4 / 16

/-- R88: the field value is the layout's number, zero-extended. -/
theorem fieldValue_toNat (k : Kind) (b3 b4 : Byte) :
    (fieldValue k b3 b4).toNat = k.fieldNumber b3.toNat b4.toNat := by
  cases k <;> simp only [fieldValue]
  case temp => exact cmb16_toNat b3 b4
  case hum => exact (BitVec.toNat_setWidth_of_le (by decide)).trans (cmb12h_toNat b3 b4)
  case rain => exact (BitVec.toNat_setWidth_of_le (by decide)).trans (msk7_toNat b3)
  case generic => exact (BitVec.toNat_setWidth_of_le (by decide)).trans (cmb12_toNat b3 b4)

/-! ### What the packet rows decode -/

/-- A row that runs its packet with a layout decodes it as that layout's number (R53, R95). -/
theorem packetRowDecodes {row : PacketFields → Instr} {tag : BitVec 4} {k : Kind}
    (h : ∀ p s, exec (row p) s = s.runPacket tag k p) :
    PacketRowDecodes row tag k.bits fun p => k.fieldNumber p.b3.toNat p.b4.toNat := by
  intro p s
  rw [h]
  exact ⟨fun hc => ⟨_, fieldValue_toNat k p.b3 p.b4, State.runPacket_accepted hc⟩,
    fun hc => State.runPacket_rejected hc⟩

/-- Settles O36: the three rows run their packet with the layouts `TEMP`, `HUM` and `RAIN`. -/
theorem recognisedPacketRowsDecode : Obligations.RecognisedPacketRowsDecode :=
  ⟨packetRowDecodes (k := .temp) fun _ _ => rfl, packetRowDecodes (k := .hum) fun _ _ => rfl,
    packetRowDecodes (k := .rain) fun _ _ => rfl⟩

theorem genericRowDecodes {row : PacketFields → Instr} {tag : BitVec 4}
    (h : ∀ p s, exec (row p) s = s.runPacket tag .generic p) : PacketRowDecodes row tag 0 genericNumber :=
  packetRowDecodes h

/-- Settles O37: each of the thirteen rows runs its packet with the layout `GENERIC`. -/
theorem genericPacketRowsDecode : Obligations.GenericPacketRowsDecode := by
  refine ⟨?_, ?_, ?_, ?_, ?_, ?_, ?_, ?_, ?_, ?_, ?_, ?_, ?_⟩ <;>
    exact genericRowDecodes fun _ _ => rfl

theorem decodeRawPacket_accepted {q : RawPacket} {n : Nat} (h : checksum q n = 0) :
    decodeRawPacket q n =
      .accepted (tagOf q.b0) (kindOf (tagOf q.b0)) (fieldValue (kindOf (tagOf q.b0)) q.b3 q.b4) q.b1 q.b2 :=
  decodeAs_accepted h

/-- A tag that is neither `TEMP`'s nor `RAIN`'s has a layout that takes bits 7:4 of byte 4 alone (R53). -/
theorem kindOf_hum_or_generic {tag : BitVec 4} (h8 : tag ≠ 0x8) (hE : tag ≠ 0xE) :
    kindOf tag = .hum ∨ kindOf tag = .generic := by
  by_cases hA : tag = 0xA
  · exact .inl (by rw [hA]; rfl)
  · exact .inr (by rw [kindOf, if_neg h8, if_neg hA, if_neg hE])

/-- Settles O38: the field value is a number made of the bits the layout uses. -/
theorem ignoredFieldsDoNotReachTheResults : Obligations.IgnoredFieldsDoNotReachTheResults := by
  intro q q' n n' hc hc' htag hws hwd hbits
  have hval : fieldValue (kindOf (tagOf q.b0)) q.b3 q.b4 = fieldValue (kindOf (tagOf q.b0)) q'.b3 q'.b4 := by
    apply BitVec.eq_of_toNat_eq
    rw [fieldValue_toNat, fieldValue_toNat]
    generalize tagOf q.b0 = tag at hbits ⊢
    by_cases h8 : tag = 0x8
    · rw [if_pos h8] at hbits
      rw [hbits.1, hbits.2]
    · rw [if_neg h8] at hbits
      by_cases hE : tag = 0xE
      · rw [if_pos hE] at hbits
        subst hE
        exact hbits
      · rw [if_neg hE] at hbits
        rcases kindOf_hum_or_generic h8 hE with hk | hk <;> rw [hk] <;> simp only [Kind.fieldNumber, hbits]
  rw [decodeRawPacket_accepted hc, decodeRawPacket_accepted hc', ← htag, hval, hws, hwd]

/-! ### What may be raised -/

theorem State.answersWith_unique {s t : State} {c c' : Code} {v v' : Word16} (h : s.answersWith t c v)
    (h' : s.answersWith t c' v') : c = c' ∧ v = v' := by
  have he := List.append_cancel_left (h.symm.trans h')
  cases he
  exact ⟨rfl, rfl⟩

/-- The errors of an illegal operand value (R48): `E_INDEX` and `E_CFG`. -/
def Code.isOperandError : Code → Bool
  | .eIndex | .eCfg => true
  | _ => false

theorem Code.isOperandError_iff {c : Code} : c.isOperandError = false ↔ c ≠ .eIndex ∧ c ≠ .eCfg := by
  cases c <;> simp [Code.isOperandError]

theorem State.not_operandError_of_answersOk {s t : State} {c : Code} {v x : Word16} (hans : s.answersWith t c v)
    (hok : s.answersWith t .ok x) : c.isOperandError = false := by
  rw [(State.answersWith_unique hans hok).1]
  rfl

/-- An operation that may raise answers no operand error when neither its reads nor its own next state does. -/
theorem State.attempt_not_operandError {α : Type} {s t : State} {x : Except Err α} {g : α → State} {c : Code}
    {v : Word16} (h : s.attempt (x >>= fun a => pure (g a)) = .next t) (hans : s.answersWith t c v)
    (hx : ∀ e, x = .error e → e.code.isOperandError = false)
    (hg : ∀ a, ∃ c v, s.answersWith (g a) c v ∧ c.isOperandError = false) : c.isOperandError = false := by
  cases x with
  | ok a =>
    cases h
    obtain ⟨_, _, hans', hc'⟩ := hg a
    rwa [(State.answersWith_unique hans hans').1]
  | error e =>
    cases h
    have hans' : s.answersWith (s.afterError e.code) e.code 0 := rfl
    rw [(State.answersWith_unique hans hans').1]
    exact hx e rfl

/-- What a decode answers is `OK` or `BADCRC`, no error. -/
theorem State.deliver_answers (s : State) (d : Decoded) :
    ∃ c v, s.answersWith (s.deliver d) c v ∧ c.isOperandError = false := by
  cases d <;> exact ⟨_, _, rfl, rfl⟩

/-- A read at a legal index raises `E_UNINIT` or nothing. -/
theorem State.memRead_not_operandError {s : State} {i : Byte} {e : Err} (hi : i.toNat < 10)
    (h : s.memRead i = .error e) : e.code.isOperandError = false := by
  obtain ⟨rfl, _⟩ := State.memRead_small_error hi h
  rfl

theorem State.memReadAll_not_operandError {s : State} {is : List Byte} {e : Err} (his : ∀ i ∈ is, i.toNat < 10)
    (h : s.memReadAll is = .error e) : e.code.isOperandError = false := by
  induction is with
  | nil => cases h
  | cons i is ih =>
    obtain ⟨hi, his⟩ := List.forall_mem_cons.mp his
    simp only [State.memReadAll] at h
    split at h
    next e' he =>
      cases h
      exact State.memRead_not_operandError hi he
    next b _ =>
      split at h
      next e' he =>
        cases h
        exact ih his he
      next => cases h

theorem State.memReadPacket_not_operandError {s : State} {e : Err} (h : s.memReadPacket = .error e) :
    e.code.isOperandError = false := by
  obtain ⟨i, rfl⟩ := State.memReadPacket_error h
  rfl

theorem lt_of_mem_indicesBelow {n : Nat} (hn : n ≤ 10) {i : Byte} (hi : i ∈ indicesBelow n) : i.toNat < 10 := by
  obtain ⟨k, hk, rfl⟩ := List.mem_map.mp hi
  have := List.mem_range.mp hk
  rw [BitVec.toNat_ofNat]
  omega

theorem resultValue_not_operandError {r : Byte} {n : Nat} {x : Option (BitVec n)} {e : Err}
    (h : resultValue r x = .error e) : e.code.isOperandError = false := by
  cases x <;> cases h
  rfl

theorem State.registerValue_not_operandError {s : State} {r : Byte} {k : Nat} (hk : k ≤ 9) {e : Err}
    (h : s.registerValue r k = .error e) : e.code.isOperandError = false := by
  match k, hk with
  | 0, _ | 1, _ | 2, _ | 3, _ => cases h
  | 4, _ | 5, _ | 6, _ | 7, _ | 8, _ | 9, _ => exact resultValue_not_operandError h

theorem State.readRegister_not_operandError {s : State} {r : Byte} (hr : r.toNat ≤ 9) {e : Err}
    (h : s.readRegister r = .error e) : e.code.isOperandError = false := by
  rw [State.readRegister, registerNumber_legal hr] at h
  exact State.registerValue_not_operandError hr h

/-! ### The instructions with a checked operand -/

theorem exec_pstb_legal {j : Byte} (hj : j.toNat < 10) (d : Byte) (s : State) :
    exec (.pstb j d) s = .next (State.afterAnswer { s.withoutResults with pkt := s.pkt.write j.toNat d } 0) := by
  simp only [exec, execPstb, State.memWrite, byteIndex_legal hj]
  rfl

theorem exec_pstb_illegal {j : Byte} (hj : ¬ j.toNat < 10) (d : Byte) (s : State) :
    exec (.pstb j d) s = .next (s.afterError .eIndex) := by
  simp only [exec, execPstb, State.memWrite, byteIndex_illegal hj]
  rfl

theorem exec_pldb_illegal {j : Byte} (hj : ¬ j.toNat < 10) (s : State) :
    exec (.pldb j) s = .next (s.afterError .eIndex) := by
  simp only [exec, execPldb, State.memRead_illegal hj]
  rfl

theorem exec_rdr_illegal {r : Byte} (hr : ¬ r.toNat ≤ 9) (s : State) :
    exec (.rdr r) s = .next (s.afterError .eIndex) := by
  simp only [exec, execRdr, State.readRegister, registerNumber_illegal hr]
  rfl

theorem exec_wrc_legal {v : Byte} (hv : 1 ≤ v.toNat ∧ v.toNat ≤ 10) (s : State) :
    exec (.wrc 1 v) s =
      .next (State.afterAnswer { s.withoutResults with len := v.setWidth 4 } (v.setWidth 16)) := by
  simp only [exec, execWrc, writableRegister, checksumRange_legal hv]
  rfl

theorem exec_wrc_illegal_value {v : Byte} (hv : ¬ (1 ≤ v.toNat ∧ v.toNat ≤ 10)) (s : State) :
    exec (.wrc 1 v) s = .next (s.afterError .eCfg) := by
  simp only [exec, execWrc, writableRegister, checksumRange_illegal hv]
  rfl

theorem exec_wrc_illegal_register {r : Byte} (hr : r ≠ 1) (v : Byte) (s : State) :
    exec (.wrc r v) s = .next (s.afterError .eIndex) := by
  simp only [exec, execWrc, writableRegister, if_neg hr]
  rfl

theorem legalRange_iff {v : Byte} : legalRange v = true ↔ 1 ≤ v.toNat ∧ v.toNat ≤ 10 := by
  simp [legalRange]

/-- With legal operands, and `CFG.LEN` at most 10, no instruction answers an operand error (R48). -/
theorem exec_not_operandError {i : Instr} {s t : State} {c : Code} {v : Word16} (hi : i.wellFormed = true)
    (hlen : s.len.toNat ≤ 10) (h : exec i s = .next t) (hans : s.answersWith t c v) : c.isOperandError = false := by
  cases i
  case pclr | cinit | cbyte | crd | rev8 | cmb12 | cmb12h | cmb16 | msk7 | eclr =>
    cases h
    exact State.not_operandError_of_answersOk hans rfl
  case pstb j d =>
    rw [exec_pstb_legal (of_decide_eq_true hi)] at h
    cases h
    exact State.not_operandError_of_answersOk hans rfl
  case pldb j =>
    have hj : j.toNat < 10 := of_decide_eq_true hi
    exact State.attempt_not_operandError h hans (fun _ => State.memRead_not_operandError hj) fun _ => ⟨_, _, rfl, rfl⟩
  case pcrc =>
    exact State.attempt_not_operandError h hans
      (fun _ => State.memReadAll_not_operandError fun _ => lt_of_mem_indicesBelow hlen) fun _ => ⟨_, _, rfl, rfl⟩
  case ptag =>
    exact State.attempt_not_operandError h hans (fun _ => State.memRead_not_operandError (by decide))
      fun _ => ⟨_, _, rfl, rfl⟩
  case pdec =>
    exact State.attempt_not_operandError h hans (fun _ => State.memReadPacket_not_operandError)
      fun _ => s.deliver_answers _
  case rdr r =>
    have hr : r.toNat ≤ 9 := of_decide_eq_true hi
    exact State.attempt_not_operandError h hans (fun _ => State.readRegister_not_operandError hr)
      fun _ => ⟨_, _, rfl, rfl⟩
  case wrc r n =>
    obtain ⟨hr, hn⟩ := Bool.and_eq_true_iff.mp hi
    obtain rfl : r = 1 := eq_of_beq hr
    rw [exec_wrc_legal (legalRange_iff.mp hn)] at h
    cases h
    exact State.not_operandError_of_answersOk hans rfl
  all_goals
    cases h
    obtain ⟨_, _, hans', hc'⟩ := s.deliver_answers _
    rwa [(State.answersWith_unique hans hans').1]

/-- An illegal operand value answers an operand error (R48). -/
theorem exec_of_not_wellFormed {i : Instr} (hi : i.wellFormed = false) (s : State) :
    exec i s = .next (s.afterError .eIndex) ∨ exec i s = .next (s.afterError .eCfg) := by
  cases i
  case pstb j d => exact .inl (exec_pstb_illegal (of_decide_eq_false hi) d s)
  case pldb j => exact .inl (exec_pldb_illegal (of_decide_eq_false hi) s)
  case rdr r => exact .inl (exec_rdr_illegal (of_decide_eq_false hi) s)
  case wrc r v =>
    by_cases hr : r = 1
    · subst hr
      refine .inr (exec_wrc_illegal_value (fun hv => ?_) s)
      rw [Instr.wellFormed, legalRange_iff.mpr hv] at hi
      cases hi
    · exact .inl (exec_wrc_illegal_register hr v s)
  all_goals cases hi

/-- Settles O18, by the instructions with an illegal operand and by the errors the legal ones can raise. -/
theorem illegalOperandsAndOnlyTheyAnswerIndexOrCfg : Obligations.IllegalOperandsAndOnlyTheyAnswerIndexOrCfg :=
  ⟨fun _ s hi => exec_of_not_wellFormed hi s, fun _ _ _ _ _ hi hlen h hans =>
    Code.isOperandError_iff.mp (exec_not_operandError hi hlen h hans)⟩

/-! ### The sequence of `DECODE` -/

/-- The step that takes the word of an operation runs the operation. -/
theorem step_encoded {s : State} {i : Instr} {w : RequestWord} {rest : List HostEvent} (hi : encode i = .request w)
    (hp : s.pending = .request w :: rest) : step s = exec i { s with pending := rest } :=
  step_decoded hp (decodeRequest_of_encode hi)

/-- What is pending when the host has issued a sequence of operations before `rest`. -/
def issuedBefore (is : List Instr) (rest : List HostEvent) : List HostEvent :=
  (requestWords is).map HostEvent.request ++ rest

theorem issuedBefore_append (is js : List Instr) (rest : List HostEvent) :
    issuedBefore (is ++ js) rest = issuedBefore is (issuedBefore js rest) := by
  simp [issuedBefore, requestWords]

/-- `u` is `s` after `n` operations that answered OK 0x0000 and left `ACC`, `CFG.LEN`, `ERR` and `ECODE` alone. -/
structure AnsweredOk (s u : State) (n : Nat) : Prop where
  responses : u.responses = s.responses ++ List.replicate n { code := .ok, val := 0 }
  acc : u.acc = s.acc
  len : u.len = s.len
  err : u.status.err = s.status.err
  ecode : u.status.ecode = s.status.ecode

theorem AnsweredOk.trans {s t u : State} {m n : Nat} (h : AnsweredOk s t m) (h' : AnsweredOk t u n) :
    AnsweredOk s u (m + n) where
  responses := by rw [h'.responses, h.responses, List.append_assoc, List.replicate_append_replicate]
  acc := h'.acc.trans h.acc
  len := h'.len.trans h.len
  err := h'.err.trans h.err
  ecode := h'.ecode.trans h.ecode

theorem exec_pclr (s : State) :
    exec .pclr s = .next (State.afterAnswer { s.withoutResults with pkt := [] } 0) := rfl

theorem step_pclr {s : State} {rest : List HostEvent} (hp : s.pending = issuedBefore [.pclr] rest) :
    ∃ t, step s = .next t ∧ t.pending = rest ∧ t.pkt = [] ∧ AnsweredOk s t 1 :=
  ⟨_, (step_encoded rfl hp).trans (exec_pclr _), rfl, rfl, ⟨rfl, rfl, rfl, rfl, rfl⟩⟩

theorem step_pstb {s : State} {j d : Byte} {rest : List HostEvent} (hj : j.toNat < 10)
    (hp : s.pending = issuedBefore [.pstb j d] rest) :
    ∃ t, step s = .next t ∧ t.pending = rest ∧ t.pkt = s.pkt.write j.toNat d ∧ AnsweredOk s t 1 :=
  ⟨_, (step_encoded rfl hp).trans (exec_pstb_legal hj d _), rfl, rfl, ⟨rfl, rfl, rfl, rfl, rfl⟩⟩

/-- `PSTB` of a list of bytes from index `j` on. -/
def storeOps : Nat → List Byte → List Instr
  | _, [] => []
  | j, d :: ds => .pstb (BitVec.ofNat 8 j) d :: storeOps (j + 1) ds

/-- The buffer after a list of bytes is stored from index `j` on. -/
def Memory.storeFrom : Memory → Nat → List Byte → Memory
  | m, _, [] => m
  | m, j, d :: ds => (m.write j d).storeFrom (j + 1) ds

theorem ploadOps_eq (q : RawPacket) : ploadOps q = [.pclr] ++ storeOps 0 (packetBytes q) := rfl

theorem Memory.storeFrom_packetBytes (q : RawPacket) : Memory.storeFrom [] 0 (packetBytes q) = Memory.ofPacket q := rfl

/-- A run over stores, one step each. -/
theorem run_storeOps {ds : List Byte} {j : Nat} {s : State} {rest : List HostEvent} (hj : j + ds.length ≤ 10)
    (hp : s.pending = issuedBefore (storeOps j ds) rest) :
    ∃ t, core.run ds.length s = .next t ∧ t.pending = rest ∧ t.pkt = s.pkt.storeFrom j ds ∧
      AnsweredOk s t ds.length := by
  induction ds generalizing j s with
  | nil => exact ⟨s, rfl, hp, rfl, ⟨(List.append_nil _).symm, rfl, rfl, rfl, rfl⟩⟩
  | cons d ds ih =>
    rw [List.length_cons] at hj ⊢
    have hjb : (BitVec.ofNat 8 j).toNat = j := by
      rw [BitVec.toNat_ofNat]
      omega
    obtain ⟨t, hstep, hpending, hpkt, ht⟩ := step_pstb (rest := issuedBefore (storeOps (j + 1) ds) rest) (by omega) hp
    obtain ⟨u, hrun, hrest, hupkt, hu⟩ := ih (by omega) hpending
    refine ⟨u, (run_succ_of_step hstep ds.length).trans hrun, hrest, ?_, ?_⟩
    · rw [hupkt, hpkt, hjb, Memory.storeFrom]
    · rw [Nat.add_comm]
      exact ht.trans hu

/-- `PLOAD` loads the buffer with its ten bytes (R59), whatever was in it (R158). -/
theorem run_ploadOps {q : RawPacket} {s : State} {rest : List HostEvent}
    (hp : s.pending = issuedBefore (ploadOps q) rest) :
    ∃ t, core.run 11 s = .next t ∧ t.pending = rest ∧ t.pkt.Holds q ∧ AnsweredOk s t 11 := by
  rw [ploadOps_eq, issuedBefore_append] at hp
  obtain ⟨t, hstep, hpending, hpkt, ht⟩ := step_pclr hp
  obtain ⟨u, hrun, hrest, hupkt, hu⟩ := run_storeOps (Nat.le_refl 10) hpending
  refine ⟨u, (run_succ_of_step hstep 10).trans hrun, hrest, ?_, ht.trans hu⟩
  rw [hupkt, hpkt, Memory.storeFrom_packetBytes]
  exact Memory.holds_ofPacket q

/-- What `PDEC` answers of a loaded buffer, and what it leaves alone (R95). -/
theorem exec_pdec_loaded {s : State} {q : RawPacket} (hq : s.pkt.Holds q) :
    ∃ t, exec .pdec s = .next t ∧ t.pending = s.pending ∧ t.pkt = s.pkt ∧
      t.responses = s.responses ++
        [if checksum q s.len.toNat = 0 then { code := .ok, val := fieldValue (kindOf (tagOf q.b0)) q.b3 q.b4 }
          else { code := .badcrc, val := checksum q s.len.toNat }] ∧
      t.acc = s.acc ∧ t.len = s.len ∧ t.status.err = s.status.err ∧ t.status.ecode = s.status.ecode := by
  refine ⟨_, exec_pdec_of_holds hq, ?_⟩
  by_cases hc : checksum q s.len.toNat = 0
  · rw [decodeRawPacket_accepted hc, State.deliver_accepted, if_pos hc]
    exact ⟨rfl, rfl, rfl, rfl, rfl, rfl, rfl⟩
  · rw [decodeRawPacket, decodeAs_rejected hc, State.deliver_rejected, if_neg hc]
    exact ⟨rfl, rfl, rfl, rfl, rfl, rfl, rfl⟩

/-- Settles O39: the eleven steps of `PLOAD`, then the step of `PDEC` on the buffer they loaded. -/
theorem decodeSequenceAnswersTheDecoder : Obligations.DecodeSequenceAnswersTheDecoder := by
  intro q s rest hp
  have hp' : s.pending = issuedBefore (ploadOps q) (issuedBefore [.pdec] rest) := by
    rw [← issuedBefore_append]
    exact hp
  obtain ⟨t, hrun, hpending, hq, ht⟩ := run_ploadOps hp'
  obtain ⟨u, hexec, hrest, hpkt, hresponses, hacc, hlen, herr, hecode⟩ :=
    exec_pdec_loaded (s := { t with pending := rest }) hq
  refine ⟨u, (run_succ_of_run hrun).trans ((step_encoded rfl hpending).trans hexec), hrest, ?_, ?_, hacc.trans ht.acc,
    hlen.trans ht.len, herr.trans ht.err, hecode.trans ht.ecode⟩
  · rw [hpkt]
    exact hq
  · rw [hresponses, ht.responses, ht.len]

end Sys2Proof.Machine

/-! PROOFS of the family 40_packet_buffer.md: `PSTB` (O28), `PLDB` (O29), `PCLR` (O27). What a row of the case table of
R60 says of the words of its operation is proved once for each format. -/

namespace Sys2Proof

/-! ### The words of an operation, by format -/

theorem decodeZ_zero (op : Byte) (i : Instr) : decodeZ op 0 0 i = .ok i := if_pos ⟨rfl, rfl⟩

theorem decodeZ_nonzero {op a b : Byte} {i : Instr} (h : a ≠ 0 ∨ b ≠ 0) :
    decodeZ op a b i = .error (.unusedFieldNotZero op a b) :=
  if_neg fun ⟨ha, hb⟩ => h.elim (fun hna => hna ha) fun hnb => hnb hb

theorem decodeA_zero (op a : Byte) (i : Instr) : decodeA op a 0 i = .ok i := if_pos rfl

theorem decodeA_nonzero {op a b : Byte} {i : Instr} (h : b ≠ 0) :
    decodeA op a b i = .error (.unusedFieldNotZero op a b) := if_neg h

end Sys2Proof

namespace Sys2Proof.Machine

/-- An operation whose row of R60 is of format `Z` has one word; its other words are illegal (R46, R54). -/
theorem EncodedAsZ.of_row {op : Byte} {i : Instr} (hrow : ∀ a b, decodeFields op a b = decodeZ op a b i) :
    EncodedAsZ op i := by
  have hdecode (a b : Byte) : decodeRequest (requestWord op a b) = decodeZ op a b i :=
    (decodeRequest_requestWord op a b).trans (hrow a b)
  exact ⟨(hdecode 0 0).trans (decodeZ_zero op i),
    fun a b _ _ hab hp => step_illegal hp ((hdecode a b).trans (decodeZ_nonzero hab))⟩

/-- An operation whose row of R60 is of format `A` has a word for each `a`; its other words are illegal (R46, R54). -/
theorem EncodedAsA.of_row {op : Byte} {i : Byte → Instr} (hrow : ∀ a b, decodeFields op a b = decodeA op a b (i a)) :
    EncodedAsA op i := by
  have hdecode (a b : Byte) : decodeRequest (requestWord op a b) = decodeA op a b (i a) :=
    (decodeRequest_requestWord op a b).trans (hrow a b)
  exact ⟨fun a => (hdecode a 0).trans (decodeA_zero op a (i a)),
    fun a b _ _ hb hp => step_illegal hp ((hdecode a b).trans (decodeA_nonzero hb))⟩

/-- An operation whose row of R60 is of format `AB` has a word for each `a` and `b` (R46). -/
theorem EncodedAsAB.of_row {op : Byte} {i : Byte → Byte → Instr} (hrow : ∀ a b, decodeFields op a b = .ok (i a b)) :
    EncodedAsAB op i :=
  fun a b => (decodeRequest_requestWord op a b).trans (hrow a b)

/-! ### `PSTB` -/

/-- Settles O28, by the state a legal `PSTB` leaves: read after write at its index and at every other. -/
theorem pstbStoresOneByte : Obligations.PstbStoresOneByte := by
  refine ⟨EncodedAsAB.of_row fun _ _ => rfl, fun i d s hi => ?_,
    fun i d s hi => exec_pstb_illegal (Nat.not_lt.mpr hi) d s⟩
  exact ⟨_, exec_pstb_legal (Nat.lt_succ_of_le hi) d s, Memory.read_write_same s.pkt i.toNat d,
    fun _ ha => Memory.read_write_other s.pkt d ha, rfl⟩

/-! ### `PLDB` -/

theorem exec_pldb_written {i v : Byte} {s : State} (hi : i.toNat < 10) (h : s.pkt.read i.toNat = some v) :
    exec (.pldb i) s = .next (s.afterAnswer (v.setWidth 16)) := by
  simp only [exec, execPldb, State.memRead_value hi h]
  rfl

theorem exec_pldb_unwritten {i : Byte} {s : State} (hi : i.toNat < 10) (h : s.pkt.read i.toNat = none) :
    exec (.pldb i) s = .next (s.afterError .eUninit) := by
  simp only [exec, execPldb, State.memRead_unwritten hi h]
  rfl

/-- Settles O29, by the three things a read of a packet byte can do (R33): a byte, `E_UNINIT`, `E_INDEX`. -/
theorem pldbReadsOneByte : Obligations.PldbReadsOneByte := by
  refine ⟨EncodedAsA.of_row fun _ _ => rfl, fun i v s hi hv => ?written, fun i s hi hnone => ?unwritten,
    fun i s hi => ?illegal⟩
  case written =>
    exact ⟨v.setWidth 16, BitVec.toNat_setWidth_of_le (by decide), exec_pldb_written (Nat.lt_succ_of_le hi) hv⟩
  case unwritten => exact exec_pldb_unwritten (Nat.lt_succ_of_le hi) hnone
  case illegal => exact exec_pldb_illegal (Nat.not_lt.mpr hi) s

/-! ### `PCLR` -/

/-- Settles O27: `PCLR` leaves the empty buffer, whose cells all read `NONE` and whose valid bits are 0. -/
theorem pclrEmptiesTheBuffer : Obligations.PclrEmptiesTheBuffer :=
  ⟨EncodedAsZ.of_row fun _ _ => rfl, fun s => ⟨_, exec_pclr s, Memory.read_nil, Memory.pv_nil, rfl⟩⟩

end Sys2Proof.Machine

/-! PROOFS of the family 41_crc.md: the function layer, that is the round as a number (O31), linearity (O48), the table
form (O50), a message with its own CRC (O47), single-bit changes (O49) and the document's form of the masking (O51); then
the operations `CINIT` and `CRD` (O30), `CBYTE` (O31), the sequence `CRC16` (O32) and `PCRC` (O33). -/

namespace Sys2Proof.Machine

/-! ### One round -/

/-- The bit a round tests, by the number of the accumulator. -/
theorem getLsbD_fifteen (x : Word16) : x.getLsbD 15 = decide (0x8000 ≤ x.toNat) :=
  (BitVec.msb_eq_getLsbD_last x).symm.trans (BitVec.msb_eq_decide x)

theorem crc16Bit_of_lt {x : Word16} (h : x.toNat < 0x8000) : crc16Bit x = x <<< 1 := by
  rw [crc16Bit, getLsbD_fifteen, if_neg]
  simpa using h

theorem crc16Bit_of_ge {x : Word16} (h : 0x8000 ≤ x.toNat) : crc16Bit x = (x <<< 1) ^^^ 0x1021 := by
  rw [crc16Bit, getLsbD_fifteen, if_pos (decide_eq_true h)]

theorem toNat_shiftLeft_one (x : Word16) : (x <<< 1).toNat = 2 * x.toNat % 0x10000 := by
  rw [BitVec.toNat_shiftLeft, Nat.shiftLeft_eq, Nat.mul_comm]

/-- A round as a number (R70). -/
theorem crc16Bit_toNat (x : Word16) :
    (crc16Bit x).toNat = if x.toNat < 0x8000 then 2 * x.toNat else (2 * x.toNat - 0x10000) ^^^ 0x1021 := by
  split
  next h =>
    rw [crc16Bit_of_lt h, toNat_shiftLeft_one]
    omega
  next h =>
    have hshift : (x <<< 1).toNat = 2 * x.toNat - 0x10000 := by
      rw [toNat_shiftLeft_one]
      omega
    rw [crc16Bit_of_ge (Nat.not_lt.mp h), BitVec.toNat_xor, hshift]
    rfl

/-- A round is linear: whether the polynomial is added depends on one bit of the input (R74). -/
theorem crc16Bit_xor (x y : Word16) : crc16Bit (x ^^^ y) = crc16Bit x ^^^ crc16Bit y := by
  simp only [crc16Bit, BitVec.getLsbD_xor, BitVec.shiftLeft_xor_distrib]
  generalize (0x1021 : Word16) = p
  cases x.getLsbD 15 <;> cases y.getLsbD 15
  case false.false => rfl
  case false.true => exact BitVec.xor_assoc _ _ _
  case true.false =>
    change x <<< 1 ^^^ y <<< 1 ^^^ p = x <<< 1 ^^^ p ^^^ y <<< 1
    ac_rfl
  case true.true =>
    calc
      x <<< 1 ^^^ y <<< 1 = x <<< 1 ^^^ y <<< 1 ^^^ (p ^^^ p) := by rw [BitVec.xor_self, BitVec.xor_zero]
      _ = x <<< 1 ^^^ p ^^^ (y <<< 1 ^^^ p) := by ac_rfl

/-- A round takes only zero to zero: a shift that loses no bit loses nothing, and one that loses the top
bit is followed by the polynomial, whose bit 0 is set (R74). -/
theorem eq_zero_of_crc16Bit_eq_zero {x : Word16} (h : crc16Bit x = 0) : x = 0 := by
  by_cases hx : x.toNat < 0x8000
  · have hn : (crc16Bit x).toNat = 2 * x.toNat := (crc16Bit_toNat x).trans (if_pos hx)
    rw [h] at hn
    have hzero : (0 : Word16).toNat = 0 := rfl
    apply BitVec.eq_of_toNat_eq
    omega
  · have hbit : (crc16Bit x).getLsbD 0 = true := by
      simp [crc16Bit_of_ge (Nat.not_lt.mp hx)]
    rw [h] at hbit
    cases hbit

theorem crc16Bit_injective : Function.Injective crc16Bit := by
  intro x y h
  apply BitVec.xor_eq_zero_iff.mp
  apply eq_zero_of_crc16Bit_eq_zero
  rw [crc16Bit_xor, h]
  exact BitVec.xor_self

/-! ### Rounds -/

theorem crc16Rounds_xor (n : Nat) (x y : Word16) :
    crc16Rounds n (x ^^^ y) = crc16Rounds n x ^^^ crc16Rounds n y := by
  induction n generalizing x y with
  | zero => rfl
  | succ n ih => simp only [crc16Rounds_succ, crc16Bit_xor, ih]

theorem crc16Rounds_injective (n : Nat) : Function.Injective (crc16Rounds n) := by
  induction n with
  | zero => exact Function.injective_id
  | succ n ih => exact ih.comp crc16Bit_injective

/-- While no set bit reaches the top, rounds only shift. -/
theorem crc16Rounds_eq_shiftLeft {n : Nat} {x : Word16} (h : x.toNat * 2 ^ n < 2 ^ 16) : crc16Rounds n x = x <<< n := by
  induction n generalizing x with
  | zero => exact (BitVec.shiftLeft_zero x).symm
  | succ n ih =>
    have hpow : 0 < 2 ^ n := Nat.two_pow_pos n
    have hdouble : 2 * x.toNat * 2 ^ n < 2 ^ 16 := by
      rw [Nat.pow_succ] at h
      linarith
    have hx : 2 * x.toNat < 0x10000 := Nat.lt_of_le_of_lt (Nat.le_mul_of_pos_right _ hpow) hdouble
    have hshift : (x <<< 1).toNat = 2 * x.toNat := (toNat_shiftLeft_one x).trans (Nat.mod_eq_of_lt hx)
    rw [crc16Rounds_succ, crc16Bit_of_lt (by omega), ih (by rwa [hshift]), ← BitVec.shiftLeft_add, Nat.add_comm]

/-! ### One byte -/

/-- A byte in the high half of a word, zero below it. -/
theorem setWidth_shiftLeft_eight (d : Byte) : d.setWidth 16 <<< 8 = d ++ 0#8 := by
  apply BitVec.eq_of_toNat_eq
  rw [toNat_append_add, BitVec.toNat_shiftLeft, BitVec.toNat_setWidth, Nat.shiftLeft_eq]
  change _ = d.toNat * 256 + 0
  omega

theorem shiftLeft_eight_append (h l : Byte) : (h ++ l : Word16) <<< 8 = l ++ 0#8 := by
  apply BitVec.eq_of_toNat_eq
  rw [BitVec.toNat_shiftLeft, Nat.shiftLeft_eq]
  simp only [toNat_append_add]
  change _ = l.toNat * 256 + 0
  omega

/-- A word is its two halves put together. -/
theorem append_halves (x : Word16) : x.extractLsb' 8 8 ++ x.extractLsb' 0 8 = x :=
  (BitVec.extractLsb'_append_extractLsb'_eq_extractLsb' rfl).trans BitVec.extractLsb'_eq_self

/-- R71 with the byte put into the high half. -/
theorem crc16Byte_eq (acc : Word16) (d : Byte) : crc16Byte acc d = crc16Rounds 8 (acc ^^^ (d ++ 0#8)) := by
  rw [crc16Byte, setWidth_shiftLeft_eight]

theorem append_zero_xor (d d' : Byte) : ((d ^^^ d') ++ 0#8 : Word16) = (d ++ 0#8) ^^^ (d' ++ 0#8) := by
  rw [BitVec.xor_append]
  rfl

/-- Settles O48: the rounds are linear, and so is putting the byte into the high half. -/
theorem crcByteIsLinear : Obligations.CrcByteIsLinear := by
  intro acc acc' d d'
  have harrange : acc ^^^ acc' ^^^ ((d ^^^ d') ++ 0#8) = acc ^^^ (d ++ 0#8) ^^^ (acc' ^^^ (d' ++ 0#8)) := by
    rw [append_zero_xor]
    ac_rfl
  simp only [crc16Byte_eq, harrange, crc16Rounds_xor]

/-! ### The table form -/

theorem crcTable_eq (k : Byte) : crcTable k = crc16Rounds 8 (k ++ 0#8) := by
  exact (crc16Byte_eq 0 k).trans (congrArg _ BitVec.zero_xor)

theorem crcTable_zero : crcTable 0 = 0 := by decide

/-- A byte after the accumulator `{h, l}`: by linearity the high half goes through the table, and the eight rounds of the
low half only shift it up (R80). -/
theorem crc16Byte_append (h l d : Byte) : crc16Byte (h ++ l) d = (l ++ 0#8) ^^^ crcTable (h ^^^ d) := by
  have hsplit : (h ++ l : Word16) ^^^ (d ++ 0#8) = (0#8 ++ l) ^^^ ((h ^^^ d) ++ 0#8) := by
    rw [BitVec.xor_append, BitVec.xor_append, BitVec.zero_xor]
  have hlow : (0#8 ++ l : Word16).toNat * 2 ^ 8 < 2 ^ 16 := by
    rw [toNat_append_add]
    change (0 * 256 + l.toNat) * 256 < 65536
    omega
  rw [crc16Byte_eq, hsplit, crc16Rounds_xor, crc16Rounds_eq_shiftLeft hlow, shiftLeft_eight_append, crcTable_eq]

theorem crc16ByteTable_eq (acc : Word16) (d : Byte) : crc16ByteTable acc d = crc16Byte acc d := by
  have h := crc16Byte_append (acc.extractLsb' 8 8) (acc.extractLsb' 0 8) d
  rw [← shiftLeft_eight_append (acc.extractLsb' 8 8), append_halves] at h
  exact h.symm

/-- Settles O50, by the halves of the accumulator; the five entries are evaluated. -/
theorem tableFormAgreesWithBitSerial : Obligations.TableFormAgreesWithBitSerial :=
  ⟨crc16ByteTable_eq, by decide, by decide, by decide, by decide, by decide⟩

/-! ### Sequences of bytes -/

/-- A byte equal to the high half clears it, and the low half moves up (R74). -/
theorem crc16Byte_append_self (h l : Byte) : crc16Byte (h ++ l) h = l ++ 0#8 := by
  rw [crc16Byte_append, BitVec.xor_self]
  exact (congrArg _ crcTable_zero).trans BitVec.xor_zero

/-- Settles O47: the high byte of the CRC clears the high half, the low byte what then stands there. -/
theorem messageWithItsCrcChecksToZero : Obligations.MessageWithItsCrcChecksToZero := by
  intro m
  rw [crc16_append]
  generalize crc16 m = c
  calc
    crc16Byte (crc16Byte c (c.extractLsb' 8 8)) (c.extractLsb' 0 8)
      = crc16Byte (c.extractLsb' 0 8 ++ 0#8) (c.extractLsb' 0 8) := by
        have h := crc16Byte_append_self (c.extractLsb' 8 8) (c.extractLsb' 0 8)
        rw [append_halves] at h
        rw [h]
    _ = 0#8 ++ 0#8 := crc16Byte_append_self _ _
    _ = 0 := rfl

theorem crc16Byte_acc_injective (d : Byte) : Function.Injective fun acc => crc16Byte acc d := by
  intro acc acc' h
  simp only [crc16Byte_eq] at h
  exact (BitVec.xor_left_inj _).mp (crc16Rounds_injective 8 h)

theorem crc16Byte_injective (acc : Word16) : Function.Injective (crc16Byte acc) := by
  intro d d' h
  rw [crc16Byte_eq, crc16Byte_eq] at h
  have hhigh : (d ++ 0#8 : Word16) = d' ++ 0#8 := (BitVec.xor_right_inj acc).mp (crc16Rounds_injective 8 h)
  exact (BitVec.append_left_inj _).mp hhigh

/-- Accumulators that differ still differ after any bytes. -/
theorem foldl_crc16Byte_injective (bytes : List Byte) : Function.Injective fun acc => bytes.foldl crc16Byte acc := by
  induction bytes with
  | nil => exact Function.injective_id
  | cons d bytes ih => exact ih.comp (crc16Byte_acc_injective d)

/-- A byte with one bit flipped is another byte. -/
theorem xor_one_shiftLeft_ne (d : Byte) {j : Nat} (hj : j < 8) : d ^^^ (1#8 <<< j) ≠ d := by
  intro h
  have hbit := congrArg (fun x => BitVec.getLsbD x j) h
  simp [hj] at hbit

/-- Settles O49: the byte that changed leaves another accumulator, and the bytes after it keep the two apart. -/
theorem singleBitChangesAreDetected : Obligations.SingleBitChangesAreDetected := by
  intro before after d j hj h
  rw [crc16_append, crc16_append] at h
  have hacc : crc16Byte (crc16 before) (d ^^^ (1#8 <<< j)) = crc16Byte (crc16 before) d :=
    foldl_crc16Byte_injective after h
  exact xor_one_shiftLeft_ne d hj (crc16Byte_injective _ hacc)

/-! ### The document's form of the masking (R73) -/

theorem ofNat_two_mul (x : Nat) : BitVec.ofNat 16 (2 * x) = BitVec.ofNat 16 x <<< 1 := by
  apply BitVec.eq_of_toNat_eq
  rw [toNat_shiftLeft_one, BitVec.toNat_ofNat, BitVec.toNat_ofNat]
  omega

/-- Bits above bit 15 reach neither the bit tested nor the bits below it. -/
theorem ofNat_crcWideBit (x : Nat) : BitVec.ofNat 16 (crcWideBit x) = crc16Bit (BitVec.ofNat 16 x) := by
  have htop : (BitVec.ofNat 16 x).getLsbD 15 = x.testBit 15 := by
    rw [BitVec.getLsbD_ofNat]
    rfl
  rw [crcWideBit, crc16Bit, htop]
  split
  · rw [BitVec.ofNat_xor, ofNat_two_mul, BitVec.ofNat_toNat, BitVec.setWidth_eq]
  · exact ofNat_two_mul x

theorem ofNat_crcWideRounds (n x : Nat) :
    BitVec.ofNat 16 (crcWideRounds n x) = crc16Rounds n (BitVec.ofNat 16 x) := by
  induction n generalizing x with
  | zero => rfl
  | succ n ih => rw [crcWideRounds, ih, ofNat_crcWideBit, crc16Rounds_succ]

/-- A byte in the document's form, masked, is a byte of `crc16_byte`. -/
theorem crcWideByte_eq (acc : Word16) (d : Byte) : crcWideByte acc.toNat d = (crc16Byte acc d).toNat := by
  have hbyte : BitVec.ofNat 16 (d.toNat * 256) = d ++ 0#8 := by
    apply BitVec.eq_of_toNat_eq
    rw [toNat_append_add, BitVec.toNat_ofNat]
    change _ = d.toNat * 256 + 0
    omega
  calc
    crcWideByte acc.toNat d = (BitVec.ofNat 16 (crcWideRounds 8 (acc.toNat ^^^ d.toNat * 256))).toNat := rfl
    _ = (crc16Byte acc d).toNat := by
      rw [ofNat_crcWideRounds, BitVec.ofNat_xor, BitVec.ofNat_toNat, BitVec.setWidth_eq, hbyte, crc16Byte_eq]

theorem foldl_crcWideByte (bytes : List Byte) (acc : Word16) :
    bytes.foldl crcWideByte acc.toNat = (bytes.foldl crc16Byte acc).toNat := by
  induction bytes generalizing acc with
  | nil => rfl
  | cons d bytes ih => rw [List.foldl_cons, List.foldl_cons, crcWideByte_eq, ih]

/-- Settles O51, byte by byte from the initial value 0. -/
theorem maskingPerByteAgreesWithEveryRound : Obligations.MaskingPerByteAgreesWithEveryRound :=
  fun bytes => foldl_crcWideByte bytes config.init

/-! ### `CINIT`, `CRD` and `CBYTE` -/

theorem exec_cinit (s : State) : exec .cinit s = .next (State.afterAnswer { s with acc := 0 } 0) := rfl

theorem exec_crd (s : State) : exec .crd s = .next (s.afterAnswer s.acc) := rfl

theorem exec_cbyte (d : Byte) (s : State) :
    exec (.cbyte d) s = .next (State.afterAnswer { s with acc := crc16Byte s.acc d } (crc16Byte s.acc d)) := rfl

/-- Settles O30, by the rows of the two operations in R60 and their meanings. -/
theorem cinitClearsAndCrdReadsTheAccumulator : Obligations.CinitClearsAndCrdReadsTheAccumulator :=
  ⟨EncodedAsZ.of_row fun _ _ => rfl, EncodedAsZ.of_row fun _ _ => rfl, fun s => ⟨exec_cinit s, exec_crd s⟩⟩

/-- Settles O31, by the row of `CBYTE` in R60, its meaning, and the round as a number. -/
theorem cbyteAddsOneByte : Obligations.CbyteAddsOneByte :=
  ⟨EncodedAsA.of_row fun _ _ => rfl, fun d s => ⟨exec_cbyte d s, crc16Byte_eq s.acc d⟩, crc16Bit_toNat⟩

/-! ### The sequence `CRC16` -/

/-- `u` is `s` after operations that gave the responses `rs` and left the packet side alone (70_reset_and_hazards.md
R160). -/
structure KeptPacketSide (s u : State) (rs : List Response) : Prop where
  responses : u.responses = s.responses ++ rs
  pkt : u.pkt = s.pkt
  len : u.len = s.len
  status : u.status = s.status
  results : u.results = s.results

theorem KeptPacketSide.trans {s t u : State} {rs rs' : List Response} (h : KeptPacketSide s t rs)
    (h' : KeptPacketSide t u rs') : KeptPacketSide s u (rs ++ rs') where
  responses := by rw [h'.responses, h.responses, List.append_assoc]
  pkt := h'.pkt.trans h.pkt
  len := h'.len.trans h.len
  status := h'.status.trans h.status
  results := h'.results.trans h.results

theorem step_cinit {s : State} {rest : List HostEvent} (hp : s.pending = issuedBefore [.cinit] rest) :
    ∃ t, step s = .next t ∧ t.pending = rest ∧ t.acc = 0 ∧ KeptPacketSide s t [{ code := .ok, val := 0 }] :=
  ⟨_, (step_encoded rfl hp).trans (exec_cinit _), rfl, rfl, ⟨rfl, rfl, rfl, rfl, rfl⟩⟩

theorem step_cbyte {s : State} {d : Byte} {rest : List HostEvent} (hp : s.pending = issuedBefore [.cbyte d] rest) :
    ∃ t, step s = .next t ∧ t.pending = rest ∧ t.acc = crc16Byte s.acc d ∧
      KeptPacketSide s t [{ code := .ok, val := crc16Byte s.acc d }] :=
  ⟨_, (step_encoded rfl hp).trans (exec_cbyte d _), rfl, rfl, ⟨rfl, rfl, rfl, rfl, rfl⟩⟩

theorem step_crd {s : State} {rest : List HostEvent} (hp : s.pending = issuedBefore [.crd] rest) :
    ∃ t, step s = .next t ∧ t.pending = rest ∧ t.acc = s.acc ∧ KeptPacketSide s t [{ code := .ok, val := s.acc }] :=
  ⟨_, (step_encoded rfl hp).trans (exec_crd _), rfl, rfl, ⟨rfl, rfl, rfl, rfl, rfl⟩⟩

/-- A run over `CBYTE`s, one step and one response each. -/
theorem run_cbytes {ds : List Byte} {s : State} {rest : List HostEvent}
    (hp : s.pending = issuedBefore (ds.map .cbyte) rest) :
    ∃ t rs, core.run ds.length s = .next t ∧ t.pending = rest ∧ t.acc = ds.foldl crc16Byte s.acc ∧
      KeptPacketSide s t rs ∧ rs.length = ds.length := by
  induction ds generalizing s with
  | nil => exact ⟨s, [], rfl, hp, rfl, ⟨(List.append_nil _).symm, rfl, rfl, rfl, rfl⟩, rfl⟩
  | cons d ds ih =>
    obtain ⟨t, hstep, hpending, hacc, ht⟩ := step_cbyte (rest := issuedBefore (ds.map .cbyte) rest) hp
    obtain ⟨u, rs, hrun, hrest, huacc, hu, hlength⟩ := ih hpending
    refine ⟨u, _, (run_succ_of_step hstep ds.length).trans hrun, hrest, ?_, ht.trans hu, congrArg Nat.succ hlength⟩
    rw [huacc, hacc, List.foldl_cons]

/-- Settles O32: the step of `CINIT`, the run over the bytes from 0x0000, the step of `CRD`. -/
theorem streamingChecksumIsCrc16 : Obligations.StreamingChecksumIsCrc16 := by
  intro ds s rest hp
  have hp' : s.pending = issuedBefore [.cinit] (issuedBefore (ds.map .cbyte) (issuedBefore [.crd] rest)) := by
    rw [← issuedBefore_append, ← issuedBefore_append]
    exact hp
  obtain ⟨t, hstep, htpending, htacc, ht⟩ := step_cinit hp'
  obtain ⟨u, rs, hrun, hupending, huacc, hu, hlength⟩ := run_cbytes htpending
  obtain ⟨v, hcrd, hrest, hvacc, hv⟩ := step_crd hupending
  have hcrc : u.acc = crc16 ds := by
    rw [huacc, htacc]
    rfl
  rw [hcrc] at hvacc hv
  obtain ⟨hresponses, hpkt, hlen, hstatus, hresults⟩ := (ht.trans hu).trans hv
  refine ⟨v, _, (run_succ_of_run ((run_succ_of_step hstep ds.length).trans hrun)).trans hcrd, hvacc,
    hresponses.trans (List.append_assoc _ _ _).symm, congrArg Nat.succ hlength, hrest, hpkt, hlen, hstatus, hresults⟩

/-! ### `PCRC` -/

/-- Reads that all find a byte give the bytes found. -/
theorem State.memReadAll_ok {s : State} {is bs : List Byte} (h : List.Forall₂ (fun i b => s.memRead i = .ok b) is bs) :
    s.memReadAll is = .ok bs := by
  induction h with
  | nil => rfl
  | cons hread _ ih => simp only [State.memReadAll, hread, ih]

/-- Reads at legal indices, one of them of an unwritten byte, raise `E_UNINIT`. -/
theorem State.memReadAll_unwritten {s : State} {is : List Byte} (his : ∀ i ∈ is, i.toNat < 10)
    (h : ∃ i ∈ is, s.pkt.read i.toNat = none) : ∃ j, s.memReadAll is = .error (.uninit j) := by
  induction is with
  | nil => simp at h
  | cons i is ih =>
    obtain ⟨hi, his⟩ := List.forall_mem_cons.mp his
    rcases s.memRead_cases i with ⟨_, v, hv, hread⟩ | ⟨_, _, hread⟩ | ⟨hbad, _⟩
    · have htail : ∃ k ∈ is, s.pkt.read k.toNat = none := by simpa [hv] using h
      obtain ⟨j, hj⟩ := ih his htail
      exact ⟨j, by simp only [State.memReadAll, hread, hj]⟩
    · exact ⟨i, by simp only [State.memReadAll, hread]⟩
    · exact absurd hi hbad

theorem toNat_ofNat_index {k : Nat} (hk : k < 10) : (BitVec.ofNat 8 k).toNat = k := by
  rw [BitVec.toNat_ofNat]
  omega

/-- The first bytes of the buffer, all written, are what reading them in increasing order gives. -/
theorem State.memReadPrefix_ok {s : State} {bs : List Byte} (hlen : bs.length ≤ 10)
    (h : ∀ (k : Nat) (hk : k < bs.length), s.pkt.read k = some bs[k]) : s.memReadPrefix bs.length = .ok bs := by
  refine State.memReadAll_ok (List.forall₂_iff_get.mpr ⟨by simp [indicesBelow], fun k _ hk => ?_⟩)
  have hindex := toNat_ofNat_index (Nat.lt_of_lt_of_le hk hlen)
  simp only [indicesBelow, List.get_eq_getElem, List.getElem_map, List.getElem_range]
  exact State.memRead_value (by omega) (by rw [hindex]; exact h k hk)

theorem State.memReadPrefix_unwritten {s : State} {n k : Nat} (hn : n ≤ 10) (hk : k < n)
    (h : s.pkt.read k = none) : ∃ j, s.memReadPrefix n = .error (.uninit j) := by
  have hmem : BitVec.ofNat 8 k ∈ indicesBelow n := List.mem_map.mpr ⟨k, List.mem_range.mpr hk, rfl⟩
  refine State.memReadAll_unwritten (fun _ => lt_of_mem_indicesBelow hn) ⟨_, hmem, ?_⟩
  rw [toNat_ofNat_index (by omega), h]

/-- Settles O33, by what the read of the first `CFG.LEN` bytes can do. -/
theorem pcrcReadsThePrefixChecksum : Obligations.PcrcReadsThePrefixChecksum := by
  refine ⟨EncodedAsZ.of_row fun _ _ => rfl, fun s bs hlen hbs hread => ?written, fun s k hlen hk hnone => ?unwritten⟩
  case written =>
    have hbytes : s.memReadPrefix s.len.toNat = .ok bs := by
      rw [← hbs]
      exact State.memReadPrefix_ok (by omega) hread
    simp only [exec, execPcrc, hbytes]
    rfl
  case unwritten =>
    obtain ⟨j, herror⟩ := State.memReadPrefix_unwritten hlen hk hnone
    simp only [exec, execPcrc, herror]
    rfl

end Sys2Proof.Machine

/-! PROOFS of the family 42_decode.md: `PDEC` (O35, O25) and `PTAG` (O34). What `PDEC` does has three equations: the
packet in the buffer is accepted, it is rejected, or a byte of it is unwritten. -/

namespace Sys2Proof.Machine

/-! ### `PDEC` -/

theorem decodeRawPacket_rejected {q : RawPacket} {n : Nat} (h : checksum q n ≠ 0) :
    decodeRawPacket q n = .rejected (tagOf q.b0) (checksum q n) :=
  decodeAs_rejected h

theorem exec_pdec_accepted {s : State} {q : RawPacket} (hq : s.pkt.Holds q) (hc : checksum q s.len.toNat = 0) :
    exec .pdec s = .next (s.afterAccept (tagOf q.b0) (kindOf (tagOf q.b0)).bits
      (fieldValue (kindOf (tagOf q.b0)) q.b3 q.b4) q.b1 q.b2) := by
  rw [exec_pdec_of_holds hq, decodeRawPacket_accepted hc, State.deliver_accepted]

theorem exec_pdec_rejected {s : State} {q : RawPacket} (hq : s.pkt.Holds q) (hc : checksum q s.len.toNat ≠ 0) :
    exec .pdec s = .next (s.afterReject (tagOf q.b0) (checksum q s.len.toNat)) := by
  rw [exec_pdec_of_holds hq, decodeRawPacket_rejected hc, State.deliver_rejected]

theorem exec_pdec_unwritten {s : State} {i : Nat} (hi : i < 10) (h : s.pkt.read i = none) :
    exec .pdec s = .next (s.afterError .eUninit) := by
  rcases s.memReadPacket_cases with ⟨q, hq, _⟩ | ⟨_, j, herror⟩
  · exact absurd hq (Memory.not_holds_of_unwritten hi h q)
  · simp only [exec, execPdec, herror]
    rfl

/-- Settles O35, by the row of `PDEC` in R60 and its three equations. -/
theorem pdecValidatesAndDecodes : Obligations.PdecValidatesAndDecodes :=
  ⟨EncodedAsZ.of_row fun _ _ => rfl, fun _ _ => exec_pdec_accepted, fun _ _ => exec_pdec_rejected,
    fun _ _ => exec_pdec_unwritten⟩

/-- Settles O25: the checksum, which the bytes and the range fix, decides for both states alike, and what an accept or a
reject writes is made of the bytes and the checksum. -/
theorem pdecIsPure : Obligations.PdecIsPure := by
  intro s₁ s₂ t₁ t₂ q hq₁ hq₂ hlen h₁ h₂
  by_cases hc : checksum q s₂.len.toNat = 0
  · cases (exec_pdec_accepted hq₁ (by rwa [hlen])).symm.trans h₁
    cases (exec_pdec_accepted hq₂ hc).symm.trans h₂
    exact ⟨⟨_, rfl, rfl⟩, rfl, rfl, rfl, rfl⟩
  · have hreject₁ := exec_pdec_rejected hq₁ (by rwa [hlen])
    rw [hlen] at hreject₁
    cases hreject₁.symm.trans h₁
    cases (exec_pdec_rejected hq₂ hc).symm.trans h₂
    exact ⟨⟨_, rfl, rfl⟩, rfl, rfl, rfl, rfl⟩

/-! ### `PTAG` -/

/-- The tag is the top four bits of byte 0, as a number (R85). -/
theorem tagOf_toNat (b0 : Byte) : (tagOf b0).toNat = b0.toNat / 16 := by
  rw [tagOf, extract_toNat]
  omega

theorem exec_ptag_written {s : State} {b : Byte} (h : s.pkt.read 0 = some b) :
    exec .ptag s = .next (s.afterAnswer ((tagOf b).setWidth 16)) := by
  have hread : s.memRead 0 = .ok b := State.memRead_value (by decide) h
  simp only [exec, execPtag, hread]
  rfl

theorem exec_ptag_unwritten {s : State} (h : s.pkt.read 0 = none) :
    exec .ptag s = .next (s.afterError .eUninit) := by
  have hread : s.memRead 0 = .error (.uninit 0) := State.memRead_unwritten (by decide) h
  simp only [exec, execPtag, hread]
  rfl

/-- Settles O34, by the row of `PTAG` in R60 and the two things the read of byte 0 can do; the answer is the tag
zero-extended. -/
theorem ptagReadsTheTypeTag : Obligations.PtagReadsTheTypeTag :=
  ⟨EncodedAsZ.of_row fun _ _ => rfl,
    fun _ b hb => ⟨(tagOf b).setWidth 16, (BitVec.toNat_setWidth_of_le (by decide)).trans (tagOf_toNat b),
      exec_ptag_written hb⟩,
    fun _ => exec_ptag_unwritten⟩

end Sys2Proof.Machine

/-! PROOFS of the family 43_utility.md: bit reversal and its three stages (O53), `REV8` (O40) and the field combines
(O41). R101 gives the reason behind O53: each stage flips one bit of the three-bit index of a position, and the reversal
flips all three. -/

namespace Sys2Proof.Machine

/-! ### Permutations of a byte that flip bits of the index -/

/-- Bit `i` of the result is the bit of the operand whose index is `i` with the bits of `m` flipped. -/
def FlipsIndex (f : Byte → Byte) (m : Nat) : Prop := ∀ d i, i < 8 → (f d).getLsbD i = d.getLsbD (i ^^^ m)

theorem FlipsIndex.comp {f g : Byte → Byte} {m n : Nat} (hf : FlipsIndex f m) (hg : FlipsIndex g n) (hm : m < 8) :
    FlipsIndex (f ∘ g) (m ^^^ n) := by
  intro d i hi
  calc
    (f (g d)).getLsbD i = (g d).getLsbD (i ^^^ m) := hf (g d) i hi
    _ = d.getLsbD (i ^^^ m ^^^ n) := hg d _ (Nat.xor_lt_two_pow (n := 3) hi hm)
    _ = d.getLsbD (i ^^^ (m ^^^ n)) := by rw [Nat.xor_assoc]

theorem flipsIndex_id : FlipsIndex id 0 := fun d i _ => congrArg d.getLsbD (Nat.xor_zero i).symm

/-- The bits flipped in the index fix the function. -/
theorem FlipsIndex.unique {f g : Byte → Byte} {m : Nat} (hf : FlipsIndex f m) (hg : FlipsIndex g m) (d : Byte) :
    f d = g d :=
  BitVec.eq_of_getLsbD_eq fun i hi => (hf d i hi).trans (hg d i hi).symm

/-- Two shifts by `k` under masks flip the index by `k`, when each position takes its bit from the one mask that holds
it: from `k` above, or from `k` below. -/
theorem flipsIndex_swap {hi lo : Byte} {k : Nat}
    (hmasks : ∀ i < 8,
      (i ^^^ k = i + k ∧ hi.getLsbD (i + k) = true ∧ (i < k ∨ lo.getLsbD (i - k) = false)) ∨
      (i ^^^ k = i - k ∧ hi.getLsbD (i + k) = false ∧ k ≤ i ∧ lo.getLsbD (i - k) = true)) :
    FlipsIndex (fun d => ((d &&& hi) >>> k) ||| ((d &&& lo) <<< k)) k := by
  intro d i hi8
  simp only [BitVec.getLsbD_or, BitVec.getLsbD_ushiftRight, BitVec.getLsbD_shiftLeft, BitVec.getLsbD_and,
    Nat.add_comm k i]
  rcases hmasks i hi8 with ⟨habove, hhi, hlo⟩ | ⟨hbelow, hhi, hki, hlo⟩
  · rcases hlo with hlt | hlo
    · simp [habove, hhi, hlt]
    · simp [habove, hhi, hlo]
  · simp [hbelow, hhi, hlo, hi8, hki]

theorem flipsIndex_swapNibbles : FlipsIndex swapNibbles 4 := flipsIndex_swap (by decide)

theorem flipsIndex_swapPairs : FlipsIndex swapPairs 2 := flipsIndex_swap (by decide)

theorem flipsIndex_swapBits : FlipsIndex swapBits 1 := flipsIndex_swap (by decide)

/-! ### Bit reversal -/

/-- Bit `i` of the reversal is bit `7 - i` of the byte (R100). The width is written as the sum that the appends make, the
form the rule for a bit of an append speaks of. -/
theorem reverseBits_getLsbD (d : Byte) {i : Nat} (hi : i < 8) : (reverseBits d).getLsbD i = d.getLsbD (7 - i) := by
  change BitVec.getLsbD (w := 1 + 1 + 1 + 1 + 1 + 1 + 1 + 1) _ i = _
  simp only [reverseBits, BitVec.getLsbD_append]
  interval_cases i <;> simp

theorem flipsIndex_reverseBits : FlipsIndex reverseBits 7 := by
  intro d i hi
  have hindex : ∀ j < 8, 7 - j = j ^^^ 7 := by decide
  rw [reverseBits_getLsbD d hi, hindex i hi]

theorem reverseBits_reverseBits (d : Byte) : reverseBits (reverseBits d) = d :=
  (flipsIndex_reverseBits.comp flipsIndex_reverseBits (by decide)).unique flipsIndex_id d

/-- Three stages that between them flip every bit of the index reverse the byte. -/
theorem stages_eq_reverseBits {f g h : Byte → Byte} {l m n : Nat} (hf : FlipsIndex f l) (hg : FlipsIndex g m)
    (hh : FlipsIndex h n) (hl : l < 8) (hm : m < 8) (hall : l ^^^ (m ^^^ n) = 7) (d : Byte) :
    f (g (h d)) = reverseBits d :=
  FlipsIndex.unique (hall ▸ hf.comp (hg.comp hh hm) hl) flipsIndex_reverseBits d

/-- Settles O53: in each order the stages flip the index bits 4, 2 and 1, which the reversal flips at once. -/
theorem bitReversalIsAnInvolution : Obligations.BitReversalIsAnInvolution := by
  intro d
  have hnibbles := flipsIndex_swapNibbles
  have hpairs := flipsIndex_swapPairs
  have hbits := flipsIndex_swapBits
  exact ⟨fun _ => reverseBits_getLsbD d, reverseBits_reverseBits d,
    stages_eq_reverseBits hbits hpairs hnibbles (by decide) (by decide) rfl d,
    stages_eq_reverseBits hpairs hbits hnibbles (by decide) (by decide) rfl d,
    stages_eq_reverseBits hbits hnibbles hpairs (by decide) (by decide) rfl d,
    stages_eq_reverseBits hnibbles hbits hpairs (by decide) (by decide) rfl d,
    stages_eq_reverseBits hpairs hnibbles hbits (by decide) (by decide) rfl d,
    stages_eq_reverseBits hnibbles hpairs hbits (by decide) (by decide) rfl d⟩

/-! ### `REV8` -/

theorem exec_rev8 (d : Byte) (s : State) :
    exec (.rev8 d) s = .next (s.afterAnswer ((reverseBits d).setWidth 16)) := rfl

/-- Settles O40, by the row of `REV8` in R60 and its meaning: the reversal, zero-extended. -/
theorem rev8ReversesTheBits : Obligations.Rev8ReversesTheBits := by
  refine ⟨EncodedAsA.of_row fun _ _ => rfl, fun d s => ⟨_, exec_rev8 d s, fun i hi => ?low, fun i hi => ?high⟩⟩
  case low =>
    have hi16 : i < 16 := by omega
    simp [hi16, reverseBits_getLsbD d hi]
  case high => simp [BitVec.getLsbD_of_ge _ i hi]

/-! ### The field combines

Each answers the value of one layout (R88) on its operands, so `fieldValue_toNat` gives it as a number. -/

theorem exec_cmb12 (a b : Byte) (s : State) :
    exec (.cmb12 a b) s = .next (s.afterAnswer (fieldValue .generic a b)) := rfl

theorem exec_cmb12h (a b : Byte) (s : State) :
    exec (.cmb12h a b) s = .next (s.afterAnswer (fieldValue .hum a b)) := rfl

theorem exec_cmb16 (a b : Byte) (s : State) :
    exec (.cmb16 a b) s = .next (s.afterAnswer (fieldValue .temp a b)) := rfl

/-- The layout `RAIN` ignores its second byte, so any `b` will do. -/
theorem exec_msk7 (a b : Byte) (s : State) :
    exec (.msk7 a) s = .next (s.afterAnswer (fieldValue .rain a b)) := rfl

/-- Settles O41, by the rows of the four operations in R60 and the layout each answers with. -/
theorem fieldCombinesComputeTheirFormulas : Obligations.FieldCombinesComputeTheirFormulas :=
  ⟨EncodedAsAB.of_row fun _ _ => rfl, EncodedAsAB.of_row fun _ _ => rfl, EncodedAsAB.of_row fun _ _ => rfl,
    EncodedAsA.of_row fun _ _ => rfl, fun a b s =>
      ⟨⟨_, fieldValue_toNat .generic a b, exec_cmb12 a b s⟩, ⟨_, fieldValue_toNat .hum a b, exec_cmb12h a b s⟩,
        ⟨_, fieldValue_toNat .temp a b, exec_cmb16 a b s⟩, ⟨_, fieldValue_toNat .rain a b, exec_msk7 a b s⟩⟩⟩

end Sys2Proof.Machine

/-! PROOFS of the family 44_system.md: `RDR` (O42, O43, O44), `WRC` (O45) and `ECLR` (O46). A read register either has a
value or it has none, so `RDR` has one equation for each; which it is, the table of R25 says register by register. -/

namespace Sys2Proof.Machine

/-! ### The registers by number (R25) -/

theorem State.readRegister_status (s : State) : s.readRegister 0 = .ok s.status.word := rfl
theorem State.readRegister_len (s : State) : s.readRegister 1 = .ok (s.len.setWidth 16) := rfl
theorem State.readRegister_acc (s : State) : s.readRegister 2 = .ok s.acc := rfl
theorem State.readRegister_pv (s : State) : s.readRegister 3 = .ok (s.pkt.pv.setWidth 16) := rfl
theorem State.readRegister_rTag (s : State) : s.readRegister 4 = resultValue 4 s.results.rTag := rfl
theorem State.readRegister_rCrc (s : State) : s.readRegister 5 = resultValue 5 s.results.rCrc := rfl
theorem State.readRegister_rKind (s : State) : s.readRegister 6 = resultValue 6 s.results.rKind := rfl
theorem State.readRegister_rVal (s : State) : s.readRegister 7 = resultValue 7 s.results.rVal := rfl
theorem State.readRegister_rWspd (s : State) : s.readRegister 8 = resultValue 8 s.results.rWspd := rfl
theorem State.readRegister_rWdir (s : State) : s.readRegister 9 = resultValue 9 s.results.rWdir := rfl

/-! ### `RDR` of a register that always has a value -/

theorem exec_rdr_of_ok {s : State} {r : Byte} {x : Word16} (h : s.readRegister r = .ok x) :
    exec (.rdr r) s = .next (s.afterAnswer x) := by
  simp only [exec, execRdr, h]
  rfl

/-- The read value of `STATUS` as a number: each flag at its bit, `ECODE` from bit 4 (R25). -/
theorem Status.word_toNat (st : Status) :
    st.word.toNat = st.done.toNat + 2 * st.ok.toNat + 4 * st.bad.toNat + 8 * st.err.toNat + 16 * st.ecode.toNat := by
  simp only [Status.word, toNat_append_add, BitVec.toNat_ofBool, BitVec.toNat_zero]
  omega

/-- Settles O42, by the row of `RDR` in R60 and the first four registers of R25. -/
theorem rdrReadsStatusAndControl : Obligations.RdrReadsStatusAndControl := by
  refine ⟨EncodedAsA.of_row fun _ _ => rfl, fun s => ⟨?status, ?range, ?accumulator, ?valid⟩⟩
  case status => exact ⟨_, exec_rdr_of_ok s.readRegister_status, s.status.word_toNat⟩
  case range => exact ⟨_, exec_rdr_of_ok s.readRegister_len, BitVec.toNat_setWidth_of_le (by decide)⟩
  case accumulator => exact exec_rdr_of_ok s.readRegister_acc
  case valid =>
    refine ⟨_, exec_rdr_of_ok s.readRegister_pv, fun i => ?_⟩
    have hwidth : (decide (i < 16) && decide (i < 10)) = decide (i < 10) := by
      rw [← Bool.decide_and, decide_eq_decide]
      omega
    rw [BitVec.getLsbD_setWidth, Memory.pv_getLsbD, ← Bool.and_assoc, hwidth, Memory.valid]

/-! ### `RDR` of a result register -/

section ResultRegister

variable {s : State} {r : Byte} {n : Nat} {o : Option (BitVec n)} {v : BitVec n}

theorem exec_rdr_held (hreg : s.readRegister r = resultValue r o) (h : o = some v) :
    exec (.rdr r) s = .next (s.afterAnswer (v.setWidth 16)) := by
  subst h
  exact exec_rdr_of_ok hreg

/-- The value answered is the value held, zero-extended: no result register is wider than a response. -/
theorem exec_rdr_held_toNat (hreg : s.readRegister r = resultValue r o) (hn : n ≤ 16) (h : o = some v) :
    ∃ x : Word16, x.toNat = v.toNat ∧ exec (.rdr r) s = .next (s.afterAnswer x) :=
  ⟨_, BitVec.toNat_setWidth_of_le hn, exec_rdr_held hreg h⟩

theorem exec_rdr_absent (hreg : s.readRegister r = resultValue r o) (h : o = none) :
    exec (.rdr r) s = .next (s.afterError .eNovalue) := by
  subst h
  simp only [exec, execRdr, hreg]
  rfl

/-- A register that holds a value is answered with `OK`, so `E_NOVALUE` says it holds none. -/
theorem exec_rdr_absent_iff (hreg : s.readRegister r = resultValue r o) :
    exec (.rdr r) s = .next (s.afterError .eNovalue) ↔ o = none := by
  refine ⟨fun herror => ?_, exec_rdr_absent hreg⟩
  cases o with
  | none => rfl
  | some v =>
    have hanswer : s.afterAnswer (v.setWidth 16) = s.afterError .eNovalue := by
      injection (exec_rdr_held hreg rfl).symm.trans herror
    have hok : s.answersWith (s.afterError .eNovalue) .ok (v.setWidth 16) := congrArg State.responses hanswer.symm
    cases (State.answersWith_unique hok rfl).1

end ResultRegister

/-- A result register as wide as a response is answered as it is. -/
theorem exec_rdr_held_word {s : State} {r : Byte} {o : Option Word16} {v : Word16}
    (hreg : s.readRegister r = resultValue r o) (h : o = some v) :
    exec (.rdr r) s = .next (s.afterAnswer v) := by
  have hexec := exec_rdr_held hreg h
  rwa [BitVec.setWidth_eq] at hexec

/-- Settles O43, register by register: the value held, or `E_NOVALUE`; then the numbers that name no register. -/
theorem rdrReadsTheResultRegisters : Obligations.RdrReadsTheResultRegisters :=
  ⟨fun s _ => exec_rdr_held_toNat s.readRegister_rTag (by decide), fun s _ => exec_rdr_held_word s.readRegister_rCrc,
    fun s _ => exec_rdr_held_toNat s.readRegister_rKind (by decide), fun s _ => exec_rdr_held_word s.readRegister_rVal,
    fun s _ => exec_rdr_held_toNat s.readRegister_rWspd (by decide),
    fun s _ => exec_rdr_held_toNat s.readRegister_rWdir (by decide),
    fun s => exec_rdr_absent s.readRegister_rTag, fun s => exec_rdr_absent s.readRegister_rCrc,
    fun s => exec_rdr_absent s.readRegister_rKind, fun s => exec_rdr_absent s.readRegister_rVal,
    fun s => exec_rdr_absent s.readRegister_rWspd, fun s => exec_rdr_absent s.readRegister_rWdir,
    fun s _ hr => exec_rdr_illegal (Nat.not_le.mpr hr) s⟩

/-! ### Which result registers hold a value, by the invariants of R17 -/

/-- Tag and checksum are held exactly when a decode ran to its end. -/
theorem State.Inv.rTag_rCrc_eq_none_iff {s : State} (h : s.Inv) :
    (s.results.rTag = none ↔ s.status.done = false) ∧ (s.results.rCrc = none ↔ s.status.done = false) := by
  cases hdone : s.status.done with
  | false =>
    obtain ⟨_, _, hnone⟩ := h.notDone hdone
    simp [hnone, Results.none]
  | true =>
    obtain ⟨_, _, q, _, htag, hcrc⟩ := h.done hdone
    simp [htag, hcrc]

/-- Without `OK` no field is held: either no decode ran to its end, or it rejected the packet. -/
theorem State.Inv.fields_eq_none {s : State} (h : s.Inv) (hok : s.status.ok = false) :
    s.results.rKind = none ∧ s.results.rVal = none ∧ s.results.rWspd = none ∧ s.results.rWdir = none := by
  cases hdone : s.status.done with
  | false =>
    obtain ⟨_, _, hnone⟩ := h.notDone hdone
    simp [hnone, Results.none]
  | true =>
    obtain ⟨hexclusive, _⟩ := h.done hdone
    have hbad : s.status.bad = true := by simpa [hok] using hexclusive
    exact (h.rejected hbad).2

/-- The four fields are held exactly when a packet was accepted. -/
theorem State.Inv.fields_eq_none_iff {s : State} (h : s.Inv) :
    (s.results.rKind = none ↔ s.status.ok = false) ∧ (s.results.rVal = none ↔ s.status.ok = false) ∧
      (s.results.rWspd = none ↔ s.status.ok = false) ∧ (s.results.rWdir = none ↔ s.status.ok = false) := by
  cases hok : s.status.ok with
  | false =>
    obtain ⟨hkind, hval, hwspd, hwdir⟩ := h.fields_eq_none hok
    simp [hkind, hval, hwspd, hwdir]
  | true =>
    obtain ⟨_, q, _, hkind, hval, hwspd, hwdir⟩ := h.accepted hok
    simp [hkind, hval, hwspd, hwdir]

/-- Settles O44: `E_NOVALUE` says that the register holds no value, and the invariants say when that is. -/
theorem resultRegistersAbsentExactlyWhenNotDone : Obligations.ResultRegistersAbsentExactlyWhenNotDone := by
  intro s hinv
  obtain ⟨htag, hcrc⟩ := hinv.rTag_rCrc_eq_none_iff
  obtain ⟨hkind, hval, hwspd, hwdir⟩ := hinv.fields_eq_none_iff
  simp only [List.forall_mem_cons, List.not_mem_nil, false_imp_iff, implies_true, and_true]
  exact ⟨⟨(exec_rdr_absent_iff s.readRegister_rTag).trans htag, (exec_rdr_absent_iff s.readRegister_rCrc).trans hcrc⟩,
    (exec_rdr_absent_iff s.readRegister_rKind).trans hkind, (exec_rdr_absent_iff s.readRegister_rVal).trans hval,
    (exec_rdr_absent_iff s.readRegister_rWspd).trans hwspd, (exec_rdr_absent_iff s.readRegister_rWdir).trans hwdir⟩

/-! ### `WRC` -/

/-- Settles O45, by the row of `WRC` in R60 and its three equations; a range that passes the check is stored as it is. -/
theorem wrcSetsTheChecksumRange : Obligations.WrcSetsTheChecksumRange := by
  refine ⟨EncodedAsAB.of_row fun _ _ => rfl, fun v s hmin hmax => ?legal, fun v s hv => ?value,
    fun r v s hr => exec_wrc_illegal_register hr v s⟩
  case legal =>
    obtain ⟨hstored, hv⟩ := checksumRange_toNat (checksumRange_legal ⟨hmin, hmax⟩)
    exact ⟨_, _, hstored, BitVec.toNat_setWidth_of_le (by decide), exec_wrc_legal hv s⟩
  case value =>
    have hillegal : ¬ (1 ≤ v.toNat ∧ v.toNat ≤ 10) := by omega
    exact exec_wrc_illegal_value hillegal s

/-! ### `ECLR` -/

theorem exec_eclr (s : State) :
    exec .eclr s = .next (State.afterAnswer { s with status := s.status.clearError } 0) := rfl

/-- Settles O46, by the row of `ECLR` in R60 and its meaning. -/
theorem eclrClearsTheStickyError : Obligations.EclrClearsTheStickyError :=
  ⟨EncodedAsZ.of_row fun _ _ => rfl, exec_eclr⟩

end Sys2Proof.Machine

/-! PROOFS of the family 45_host_software.md: the rain unwrap (O54), the unit conversions (O55), the host's procedure
for one line (O56) and for a log (O57). The host issues each request after the response to the one before it. A sequence
served so ends where the sequence issued at once ends, so the run over the steps of `PLOAD` serves the procedure too. -/

namespace Sys2Proof.Machine

/-! ### The rain unwrap -/

/-- Ticks below 128 are the difference of the two counters modulo 128. -/
theorem counter_difference_mod (previous : BitVec 7) {ticks : Nat} (h : ticks < 128) :
    ((((previous + BitVec.ofNat 7 ticks).toNat : Int) - (previous.toNat : Int)) % 128).toNat = ticks := by
  have hcounter : (previous + BitVec.ofNat 7 ticks).toNat = (previous.toNat + ticks) % 128 := by
    rw [BitVec.toNat_add, BitVec.toNat_ofNat, Nat.add_mod_mod]
  rw [hcounter]
  omega

/-- Settles O54: the first observation by definition, every later one by the difference of the counters. -/
theorem rainUnwrapRecoversTheTicks : Obligations.RainUnwrapRecoversTheTicks :=
  ⟨fun _ => rfl, fun previous _ h => Prod.ext (counter_difference_mod previous h) rfl⟩

/-! ### The unit conversions -/

theorem degC_eq (v : Word16) : degC v = ((v.toNat : Rat) - 5120) / 288 := by
  rw [degC, degF]
  ring

theorem windSpeed_eq (b : Byte) : windSpeed b = 5 * (b.toNat : Rat) / 13 := by
  rw [windSpeed]
  ring

theorem windDirection_eq (b : Byte) : windDirection b = 24 * (b.toNat : Rat) / 17 := by
  rw [windDirection]
  ring

/-- The range of a word as an exact rational, from which the range of each conversion follows. -/
theorem toNat_cast_range {n : Nat} (x : BitVec n) : (0 : Rat) ≤ x.toNat ∧ (x.toNat : Rat) ≤ 2 ^ n - 1 :=
  ⟨Nat.cast_nonneg _, le_sub_iff_add_le.mpr (by exact_mod_cast x.isLt)⟩

/-- Settles O55: each conversion in its closed form, which is monotone, so its range is that of its operand. -/
theorem unitConversionsAreExact : Obligations.UnitConversionsAreExact := by
  refine ⟨fun v => ⟨degC_eq v, ?_⟩, fun b => ⟨windSpeed_eq b, ?_⟩, fun b => ⟨windDirection_eq b, ?_⟩⟩
  · obtain ⟨hmin, hmax⟩ := toNat_cast_range v
    rw [degC_eq]
    constructor <;> linarith
  · obtain ⟨hmin, hmax⟩ := toNat_cast_range b
    rw [windSpeed_eq]
    constructor <;> linarith
  · obtain ⟨hmin, hmax⟩ := toNat_cast_range b
    rw [windDirection_eq]
    constructor <;> linarith

/-! ### Waiting for the block -/

/-- The block takes events by its own steps. -/
theorem State.take_of_run {n : Nat} {s u : State} (h : core.run n s = .next u) : s.take n = some u := by
  induction n generalizing s with
  | zero =>
    cases h
    rfl
  | succ n ih =>
    obtain ⟨t, ht⟩ := stepAlwaysAnswers s
    rw [run_succ_of_step (M := core) ht] at h
    simp only [State.take, ht, ih h]

/-- Whatever the host issued before, waiting ends, with all of it taken. -/
theorem State.exists_await (s : State) :
    ∃ u : State, core.run s.pending.length s = .next u ∧ u.pending = [] ∧ (s.pending = [] → u = s) ∧
      s.await = some u := by
  obtain ⟨u, hrun, hempty, -⟩ := run_pending_issue s 0
  refine ⟨u, hrun, hempty, fun hp => ?_, State.take_of_run hrun⟩
  rw [hp] at hrun
  cases hrun
  rfl

/-! ### One request after another -/

theorem State.withPending_of_pending_nil {s : State} (hp : s.pending = []) : { s with pending := [] } = s := by
  rw [← hp]

/-- A request served with nothing else pending is its instruction run, and the host takes the response to it. -/
theorem State.serve_of_exec {s t : State} {i : Instr} {w : RequestWord} {r : Response} (hp : s.pending = [])
    (hi : encode i = .request w) (hexec : exec i s = .next t) (hr : t.responses = s.responses ++ [r]) :
    s.serve i = some (r, t) := by
  have hpending : (s.issue w).pending = [.request w] := by rw [State.issue_pending, hp, List.nil_append]
  have hstep : step (s.issue w) = .next t := by
    rw [step_encoded hi hpending, State.issue, State.withPending_of_pending_nil hp, hexec]
  have hawait : (s.issue w).await = some t := by
    rw [State.await, hpending]
    exact State.take_of_run (run_succ_of_step (M := core) hstep 0)
  simp [State.serve, encodeRequest, hi, hawait, hr]

/-- An instruction runs as if the words issued before it had been issued after it. -/
theorem exec_issueAll {i : Instr} {s t : State} (ws : List RequestWord) (h : exec i s = .next t) :
    exec i { s with pending := s.pending ++ ws.map .request } =
      .next { t with pending := t.pending ++ ws.map .request } := by
  induction ws generalizing s t with
  | nil => simpa using h
  | cons w ws ih => simpa [State.issue] using ih (exec_issue w h)

/-- Requests served one after another end in the state they end in when they are all issued at once. -/
theorem State.serveAll_of_run {is : List Instr} {s u : State} (his : ∀ i ∈ is, ∃ w, encode i = .request w)
    (hp : s.pending = []) (hrun : core.run is.length { s with pending := issuedBefore is [] } = .next u) :
    ∃ rs, s.serveAll is = some (rs, u) := by
  induction is generalizing s with
  | nil =>
    cases (State.withPending_of_pending_nil hp).symm.trans (Host.Outcome.next.inj hrun)
    exact ⟨[], rfl⟩
  | cons i is ih =>
    obtain ⟨⟨w, hi⟩, his⟩ := List.forall_mem_cons.mp his
    obtain ⟨t, hexec⟩ := exec_answers i s
    obtain ⟨hkept, c, v, hanswer, -⟩ := (exec_effect hexec).answersOnce
    have hempty : t.pending = [] := hkept.trans hp
    have hqueue : issuedBefore (i :: is) [] = .request w :: issuedBefore is [] := by
      simp [issuedBefore, requestWords, encodeRequest, hi]
    have hstep : step { s with pending := issuedBefore (i :: is) [] } =
        .next { t with pending := issuedBefore is [] } := by
      rw [step_encoded hi hqueue]
      simpa [hp, hempty, issuedBefore] using exec_issueAll (requestWords is) hexec
    obtain ⟨rs, hrest⟩ := ih his hempty ((run_succ_of_step (M := core) hstep is.length).symm.trans hrun)
    exact ⟨{ code := c, val := v } :: rs, by simp [State.serveAll, State.serve_of_exec hp hi hexec hanswer, hrest]⟩

/-! ### The requests of the procedure -/

theorem ploadOps_encoded (q : RawPacket) : ∀ i ∈ ploadOps q, ∃ w, encode i = .request w := by
  simp [ploadOps, encode]

theorem State.serveAll_ploadOps (q : RawPacket) {s : State} (hp : s.pending = []) :
    ∃ rs t, s.serveAll (ploadOps q) = some (rs, t) ∧ t.pending = [] ∧ t.pkt.Holds q ∧ AnsweredOk s t 11 := by
  obtain ⟨t, hrun, hempty, hq, ht⟩ :=
    run_ploadOps (s := { s with pending := issuedBefore (ploadOps q) [] }) (rest := []) rfl
  obtain ⟨rs, hserve⟩ := State.serveAll_of_run (ploadOps_encoded q) hp hrun
  exact ⟨rs, t, hserve, hempty, hq, { ht with }⟩

theorem State.serve_pdec_accepted {s : State} {q : RawPacket} (hp : s.pending = []) (hq : s.pkt.Holds q)
    (hc : checksum q s.len.toNat = 0) :
    s.serve .pdec = some ({ code := .ok, val := fieldValue (kindOf (tagOf q.b0)) q.b3 q.b4 },
      s.afterAccept (tagOf q.b0) (kindOf (tagOf q.b0)).bits (fieldValue (kindOf (tagOf q.b0)) q.b3 q.b4) q.b1 q.b2) :=
  State.serve_of_exec hp rfl (exec_pdec_accepted hq hc) rfl

theorem State.serve_pdec_rejected {s : State} {q : RawPacket} (hp : s.pending = []) (hq : s.pkt.Holds q)
    (hc : checksum q s.len.toNat ≠ 0) :
    s.serve .pdec = some ({ code := .badcrc, val := checksum q s.len.toNat },
      s.afterReject (tagOf q.b0) (checksum q s.len.toNat)) :=
  State.serve_of_exec hp rfl (exec_pdec_rejected hq hc) rfl

theorem State.serve_rdr_held {s : State} {r : Byte} {n : Nat} {o : Option (BitVec n)} {v : BitVec n}
    (hp : s.pending = []) (hreg : s.readRegister r = resultValue r o) (h : o = some v) :
    s.serve (.rdr r) = some ({ code := .ok, val := v.setWidth 16 }, s.afterAnswer (v.setWidth 16)) :=
  State.serve_of_exec hp rfl (exec_rdr_held hreg h) rfl

/-- `t` is `u` after requests of the host's procedure: what they leave alone, and everything issued answered. -/
structure ProcedureKeeps (u t : State) : Prop where
  err : t.status.err = u.status.err
  ecode : t.status.ecode = u.status.ecode
  len : t.len = u.len
  acc : t.acc = u.acc
  pending : t.pending = []

/-- The one register read after a rejected packet. -/
theorem State.serve_tagRead {s : State} {tag : BitVec 4} (hp : s.pending = []) (htag : s.results.rTag = some tag) :
    ∃ t, s.serve (.rdr 4) = some ({ code := .ok, val := tag.setWidth 16 }, t) ∧ ProcedureKeeps s t :=
  ⟨_, State.serve_rdr_held hp s.readRegister_rTag htag, ⟨rfl, rfl, rfl, rfl, hp⟩⟩

/-- The four register reads after an accepted packet, in the order of log entry 16. -/
theorem State.serve_fieldReads {s : State} {tag : BitVec 4} {kind : BitVec 2} {wspd wdir : Byte} (hp : s.pending = [])
    (htag : s.results.rTag = some tag) (hkind : s.results.rKind = some kind) (hwspd : s.results.rWspd = some wspd)
    (hwdir : s.results.rWdir = some wdir) :
    ∃ s₁ s₂ s₃ t, s.serve (.rdr 6) = some ({ code := .ok, val := kind.setWidth 16 }, s₁) ∧
      s₁.serve (.rdr 8) = some ({ code := .ok, val := wspd.setWidth 16 }, s₂) ∧
      s₂.serve (.rdr 9) = some ({ code := .ok, val := wdir.setWidth 16 }, s₃) ∧
      s₃.serve (.rdr 4) = some ({ code := .ok, val := tag.setWidth 16 }, t) ∧ ProcedureKeeps s t :=
  ⟨_, _, _, _, State.serve_rdr_held hp (State.readRegister_rKind _) hkind,
    State.serve_rdr_held hp (State.readRegister_rWspd _) hwspd,
    State.serve_rdr_held hp (State.readRegister_rWdir _) hwdir,
    State.serve_rdr_held hp (State.readRegister_rTag _) htag, ⟨rfl, rfl, rfl, rfl, hp⟩⟩

/-! ### The procedure for one line -/

theorem setWidth_eight_setWidth (b : Byte) : (b.setWidth 16).setWidth 8 = b := by
  rw [BitVec.setWidth_setWidth_of_le b (by decide), BitVec.setWidth_eq]

/-- The layout number read from `R_KIND` tells `TEMP` from the other layouts. -/
theorem temperatureOf_bits (k : Kind) (v : Word16) :
    temperatureOf (k.bits.setWidth 16) v = if k = .temp then some (Config.fpRound (degC v)) else none := by
  cases k <;> rfl

section HostLine

variable {s u : State} {line : List Char} {q : RawPacket} {ts : Rat}

/-- A rejected packet: `PLOAD`, `PDEC` answered with `BADCRC`, and the tag read. -/
theorem hostLine_rejected (hawait : s.await = some u) (hp : u.pending = []) (hscan : frameScan line = .frame q ts)
    (hc : checksum q u.len.toNat ≠ 0) :
    ∃ t, hostLine s line = some (expectedReport u.len.toNat line, t) ∧ ProcedureKeeps u t := by
  obtain ⟨_, t, hload, hempty, hq, ht⟩ := State.serveAll_ploadOps q hp
  rw [← ht.len] at hc ⊢
  have hpdec := State.serve_pdec_rejected hempty hq hc
  obtain ⟨v, htag, hv⟩ :=
    State.serve_tagRead (s := t.afterReject (tagOf q.b0) (checksum q t.len.toNat)) hempty rfl
  refine ⟨v, ?_, hv.err.trans ht.err, hv.ecode.trans ht.ecode, hv.len.trans ht.len, hv.acc.trans ht.acc, hv.pending⟩
  simp only [hostLine, expectedReport, hawait, hscan, hload, hpdec, htag, if_neg hc, Option.bind_eq_bind,
    Option.bind_some, Option.pure_def]

/-- An accepted packet: `PLOAD`, `PDEC` answered with `OK`, and the four registers read. -/
theorem hostLine_accepted (hawait : s.await = some u) (hp : u.pending = []) (hscan : frameScan line = .frame q ts)
    (hc : checksum q u.len.toNat = 0) :
    ∃ t, hostLine s line = some (expectedReport u.len.toNat line, t) ∧ ProcedureKeeps u t := by
  obtain ⟨_, t, hload, hempty, hq, ht⟩ := State.serveAll_ploadOps q hp
  rw [← ht.len] at hc ⊢
  have hpdec := State.serve_pdec_accepted hempty hq hc
  obtain ⟨_, _, _, v, hkind, hwspd, hwdir, htag, hv⟩ := State.serve_fieldReads
    (s := t.afterAccept (tagOf q.b0) (kindOf (tagOf q.b0)).bits (fieldValue (kindOf (tagOf q.b0)) q.b3 q.b4) q.b1 q.b2)
    hempty rfl rfl rfl rfl
  refine ⟨v, ?_, hv.err.trans ht.err, hv.ecode.trans ht.ecode, hv.len.trans ht.len, hv.acc.trans ht.acc, hv.pending⟩
  simp only [hostLine, expectedReport, hawait, hscan, hload, hpdec, hkind, hwspd, hwdir, htag, if_pos hc, reported,
    temperatureOf_bits, setWidth_eight_setWidth, Option.bind_eq_bind, Option.bind_some, Option.pure_def]

/-- Once the block has taken what was issued before, the procedure reports what the pure functions give. -/
theorem hostLine_eq_expectedReport (hawait : s.await = some u) (hp : u.pending = []) (line : List Char) :
    ∃ t, hostLine s line = some (expectedReport u.len.toNat line, t) ∧ ProcedureKeeps u t := by
  cases hscan : frameScan line with
  | diagnostic =>
    exact ⟨u, by simp only [hostLine, expectedReport, hawait, hscan, Option.bind_eq_bind, Option.bind_some],
      rfl, rfl, rfl, rfl, hp⟩
  | skipped =>
    exact ⟨u, by simp only [hostLine, expectedReport, hawait, hscan, Option.bind_eq_bind, Option.bind_some],
      rfl, rfl, rfl, rfl, hp⟩
  | frame q ts =>
    by_cases hc : checksum q u.len.toNat = 0
    · exact hostLine_accepted hawait hp hscan hc
    · exact hostLine_rejected hawait hp hscan hc

end HostLine

/-- Settles O56: the wait for what was issued before, then the procedure from a state with nothing pending. -/
theorem hostProcedureReportsTheDecoder : Obligations.HostProcedureReportsTheDecoder := by
  intro s line
  obtain ⟨u, hrun, hempty, hself, hawait⟩ := s.exists_await
  obtain ⟨t, hline, ht⟩ := hostLine_eq_expectedReport hawait hempty line
  exact ⟨u, t, hrun, hempty, hself, hline, ht.err, ht.ecode, ht.len, ht.acc, ht.pending⟩

/-! ### A log -/

/-- Settles O57, by induction on the lines: O56 for the first, which leaves nothing pending and the same range for the
rest. -/
theorem hostReplayReportsEveryLine : Obligations.HostReplayReportsEveryLine := by
  intro lines
  induction lines with
  | nil =>
    intro s
    obtain ⟨u, hrun, hempty, hself, hawait⟩ := s.exists_await
    exact ⟨u, u, hrun, hempty, hself, by simp [hostReplay, hawait], rfl, hempty⟩
  | cons line lines ih =>
    intro s
    obtain ⟨u, t, hrun, hempty, hself, hline, herr, -, hlen, -, hpending⟩ := hostProcedureReportsTheDecoder s line
    obtain ⟨t', v, -, -, hsame, hreplay, hverr, hvpending⟩ := ih t
    cases hsame hpending
    rw [hlen] at hreplay
    refine ⟨u, v, hrun, hempty, hself, ?_, hverr.trans herr, hvpending⟩
    simp only [hostReplay, hline, hreplay, List.map_cons, Option.bind_eq_bind, Option.bind_some, Option.pure_def]

end Sys2Proof.Machine

/-! PROOFS of the family 60_exceptions.md: what an error changes (O15), a second error (O16), the order of the checks
(O17). Each of the ten effects of an instruction is an error or answers with a code that is no error, so the response
alone tells which it was. -/

namespace Sys2Proof.Machine

/-! ### What an error changes -/

/-- An instruction ends in the state R138 gives for an error, or answers with a code that is no error: `BADCRC` for a
rejected packet, else `OK` (R135, R136). -/
theorem Effect.afterError_or_answersNoError {i : Instr} {s t : State} (h : Effect i s t) :
    (∃ c, t = s.afterError c) ∨ ∃ c v, s.answersWith t c v ∧ c.isError = false := by
  cases h with
  | error c => exact .inl ⟨c, rfl⟩
  | reject => exact .inr ⟨.badcrc, _, rfl, rfl⟩
  | _ => exact .inr ⟨.ok, _, rfl, rfl⟩

theorem eq_of_answersWith_afterError {s : State} {c c' : Code} {v : Word16}
    (h : s.answersWith (s.afterError c') c v) : c' = c :=
  have hanswer : s.answersWith (s.afterError c') c' 0 := rfl
  (State.answersWith_unique hanswer h).1

/-- An instruction that answers an error leaves the state of that error (R138). -/
theorem exec_eq_afterError {i : Instr} {s t : State} {c : Code} {v : Word16} (h : exec i s = .next t)
    (hans : s.answersWith t c v) (hc : c.isError = true) : t = s.afterError c := by
  rcases (exec_effect h).afterError_or_answersNoError with ⟨c', rfl⟩ | ⟨c', v', hans', hc'⟩
  · rw [eq_of_answersWith_afterError hans]
  · rw [(State.answersWith_unique hans hans').1, hc'] at hc
    cases hc

/-- A request that is answered with an error leaves the state of that error, its word decoding or not (R138). -/
theorem step_eq_afterError {s t : State} {w : RequestWord} {rest : List HostEvent} {c : Code} {v : Word16}
    (hp : s.pending = .request w :: rest) (h : step s = .next t) (hans : s.answersWith t c v)
    (hc : c.isError = true) : t = State.afterError { s with pending := rest } c := by
  cases hd : decodeRequest w with
  | ok i => exact exec_eq_afterError ((step_decoded hp hd).symm.trans h) hans hc
  | error e =>
    rw [step_illegal hp hd] at h
    cases h
    rw [eq_of_answersWith_afterError (s := { s with pending := rest }) hans]

/-- Settles O15, by the effects of an instruction and the two ways a request word is taken. -/
theorem errorsChangeOnlyErrAndEcode : Obligations.ErrorsChangeOnlyErrAndEcode :=
  ⟨fun _ _ _ _ _ h hans hc => exec_eq_afterError h hans hc,
    fun _ _ _ _ _ _ hp h hans hc => step_eq_afterError hp h hans hc⟩

/-! ### A second error -/

/-- With `ERR` set, the state of an error is the state before and its response (R148). -/
theorem State.afterError_of_err {s : State} (h : s.status.err = true) (c : Code) :
    s.afterError c = { s with responses := s.responses ++ [{ code := c, val := 0 }] } := by
  simp only [State.afterError, h, if_true]
  rw [← h]

/-- Settles O16: the state an error leaves (O15), where `ERR` is set already. -/
theorem secondErrorSetsNothingNew : Obligations.SecondErrorSetsNothingNew := by
  refine ⟨fun i s t c v herr h hans hc => ?_, fun s w rest e herr hp hd => ?_⟩
  · rw [exec_eq_afterError h hans hc, State.afterError_of_err herr]
  · rw [step_illegal hp hd, State.afterError_of_err (s := { s with pending := rest }) herr]

/-! ### The order of the checks -/

/-- Settles O17: decoding comes before every check of an instruction, and the check of an index or a register number
before the state and the value are looked at. -/
theorem errorPriority : Obligations.ErrorPriority := by
  refine ⟨fun s rest w e hd hp => step_illegal hp hd, fun i b hb => ?unusedField,
    fun s r v hr => exec_wrc_illegal_register hr v s,
    fun s i hi => exec_pldb_illegal (Nat.not_lt.mpr hi) s,
    fun s r hr => exec_rdr_illegal (Nat.not_le.mpr hr) s⟩
  case unusedField => exact ⟨_, (decodeRequest_requestWord 0x12 i b).trans (decodeA_nonzero hb)⟩

end Sys2Proof.Machine

/-! PROOFS of the family 70_reset_and_hazards.md: `RESET` against `PCLR` (O14), the sticky error (O22), stale results
(O23), the independence of the two datapaths (O24), repeated instructions (O26), degenerate packets (O52). For O24 and
O26 an instruction is taken as a change that what it reads of the state selects: the change is the same in two states
that agree on what is read. -/

namespace Sys2Proof.Machine

/-! ### The changes an instruction can select -/

/-- What an instruction does to a state once it has read what it reads. -/
inductive Change where
  /-- an error (60_exceptions.md R138) -/
  | error (c : Code)
  /-- an answer alone -/
  | answer (v : Word16)
  /-- the buffer emptied (`PCLR`) -/
  | clear
  /-- a byte stored (`PSTB`) -/
  | store (a : Nat) (d : Byte)
  /-- `ACC` set (`CINIT`, `CBYTE`) and a value answered -/
  | setAcc (x v : Word16)
  /-- the checksum range set (`WRC`) -/
  | setLen (n : BitVec 4) (v : Word16)
  /-- the sticky error cleared (`ECLR`) -/
  | clearError
  /-- a decoder's result delivered (`PDEC`, the packet rows) -/
  | deliver (d : Decoded)

/-- The state a change leaves. -/
def Change.apply (s : State) : Change → State
  | .error c => s.afterError c
  | .answer v => s.afterAnswer v
  | .clear => State.afterAnswer { s.withoutResults with pkt := [] } 0
  | .store a d => State.afterAnswer { s.withoutResults with pkt := s.pkt.write a d } 0
  | .setAcc x v => State.afterAnswer { s with acc := x } v
  | .setLen n v => State.afterAnswer { s.withoutResults with len := n } v
  | .clearError => State.afterAnswer { s with status := s.status.clearError } 0
  | .deliver d => s.deliver d

/-- A byte stored twice is stored once. -/
theorem Memory.write_write_same (m : Memory) (a : Nat) (v : Byte) : (m.write a v).write a v = m.write a v := by
  induction m with
  | nil => simp [Memory.write]
  | cons c m ih =>
    obtain ⟨k, w⟩ := c
    rcases Nat.lt_trichotomy a k with h | rfl | h
    · simp [Memory.write, h, Nat.ne_of_lt h]
    · simp [Memory.write]
    · simp [Memory.write, Nat.not_lt_of_gt h, Nat.ne_of_gt h, ih]

/-- A change made twice is the change made once, but for the second response. -/
theorem Change.apply_apply (c : Change) (s : State) :
    ∃ r, (c.apply s).responses = s.responses ++ [r] ∧
      c.apply (c.apply s) = { c.apply s with responses := s.responses ++ [r] ++ [r] } := by
  cases c with
  | error c => exact ⟨_, rfl, by simp [Change.apply, State.afterError]⟩
  | store a d =>
    exact ⟨_, rfl, by simp [Change.apply, State.afterAnswer, State.withoutResults, Memory.write_write_same]⟩
  | deliver d => cases d <;> exact ⟨_, rfl, rfl⟩
  | _ => exact ⟨_, rfl, rfl⟩

/-- What a change leaves outside `ACC` does not depend on `ACC`. -/
theorem Change.apply_withAcc (c : Change) (s : State) (x : Word16) :
    c.apply { s with acc := x } = { c.apply s with acc := (c.apply { s with acc := x }).acc } := by
  cases c with
  | deliver d => cases d <;> rfl
  | _ => rfl

/-! ### What an instruction reads -/

/-- The two states agree on what the instruction reads of them. The last arm is that of the packet side: `PLDB`, `PCRC`,
`PTAG`, `PDEC` and the packet rows. -/
def SameInputs (s s' : State) : Instr → Prop
  | .pclr | .pstb _ _ | .cinit | .rev8 _ | .cmb12 _ _ | .cmb12h _ _ | .cmb16 _ _ | .msk7 _ | .wrc _ _ | .eclr => True
  | .cbyte _ | .crd => s'.acc = s.acc
  | .rdr r => s'.readRegister r = s.readRegister r
  | _ => s'.pkt = s.pkt ∧ s'.len = s.len

/-- States with the same buffer and range agree, but for the instructions that read `ACC` or a register. -/
theorem SameInputs.of_eq {i : Instr} {s s' : State} (hpkt : s'.pkt = s.pkt) (hlen : s'.len = s.len)
    (hacc : (∃ d, i = .cbyte d) ∨ i = .crd → s'.acc = s.acc)
    (hreg : ∀ r, i = .rdr r → s'.readRegister r = s.readRegister r) : SameInputs s s' i := by
  cases i
  case pclr | pstb | cinit | rev8 | cmb12 | cmb12h | cmb16 | msk7 | wrc | eclr => trivial
  case cbyte d => exact hacc (.inl ⟨d, rfl⟩)
  case crd => exact hacc (.inr rfl)
  case rdr r => exact hreg r rfl
  all_goals exact ⟨hpkt, hlen⟩

theorem SameInputs.refl (s : State) (i : Instr) : SameInputs s s i :=
  .of_eq rfl rfl (fun _ => rfl) fun _ _ => rfl

theorem State.memRead_of_pkt_eq {s s' : State} (h : s'.pkt = s.pkt) (j : Byte) : s'.memRead j = s.memRead j :=
  State.memRead_congr (fun _ => by rw [h]) j

theorem State.memReadAll_of_pkt_eq {s s' : State} (h : s'.pkt = s.pkt) (is : List Byte) :
    s'.memReadAll is = s.memReadAll is := by
  induction is with
  | nil => rfl
  | cons i is ih => simp only [State.memReadAll, State.memRead_of_pkt_eq h, ih]

theorem State.memReadPacket_of_pkt_eq {s s' : State} (h : s'.pkt = s.pkt) : s'.memReadPacket = s.memReadPacket := by
  simp only [State.memReadPacket, State.memRead_of_pkt_eq h]

/-- An operation that may raise makes the change of the value it read, or the error's. -/
theorem State.attempt_change {α : Type} (x : Except Err α) (f : α → Change) :
    ∃ c : Change, ∀ s : State, s.attempt (x >>= fun a => pure ((f a).apply s)) = .next (c.apply s) := by
  cases x with
  | ok a => exact ⟨f a, fun _ => rfl⟩
  | error e => exact ⟨.error e.code, fun _ => rfl⟩

/-- A packet row delivers what the range makes of the packet it carries. -/
theorem State.runPacket_change (s : State) (tag : BitVec 4) (k : Kind) (p : PacketFields) :
    ∃ c : Change, ∀ s' : State, s'.pkt = s.pkt ∧ s'.len = s.len → s'.runPacket tag k p = .next (c.apply s') := by
  refine ⟨.deliver (decodeAs tag k (p.raw tag) s.len.toNat), fun s' ⟨_, hlen⟩ => ?_⟩
  rw [← hlen]
  rfl

/-- What an instruction reads in a state selects the change it makes, there and in every state that agrees on it. -/
theorem exists_change (i : Instr) (s : State) :
    ∃ c : Change, ∀ s', SameInputs s s' i → exec i s' = .next (c.apply s') := by
  cases i
  case pclr => exact ⟨.clear, fun _ _ => rfl⟩
  case pstb j d =>
    by_cases hj : j.toNat < 10
    · exact ⟨.store j.toNat d, fun s' _ => exec_pstb_legal hj d s'⟩
    · exact ⟨.error .eIndex, fun s' _ => exec_pstb_illegal hj d s'⟩
  case pldb j =>
    obtain ⟨c, hc⟩ := State.attempt_change (s.memRead j) fun v => .answer (v.setWidth 16)
    refine ⟨c, fun s' ⟨hpkt, _⟩ => ?_⟩
    rw [← hc s', ← State.memRead_of_pkt_eq hpkt]
    rfl
  case cinit => exact ⟨.setAcc 0 0, fun _ _ => rfl⟩
  case cbyte d =>
    refine ⟨.setAcc (crc16Byte s.acc d) (crc16Byte s.acc d), fun s' (hacc : s'.acc = s.acc) => ?_⟩
    rw [exec_cbyte, hacc]
    rfl
  case crd =>
    refine ⟨.answer s.acc, fun s' (hacc : s'.acc = s.acc) => ?_⟩
    rw [exec_crd, hacc]
    rfl
  case pcrc =>
    obtain ⟨c, hc⟩ := State.attempt_change (s.memReadPrefix s.len.toNat) fun bs => .answer (crc16 bs)
    refine ⟨c, fun s' ⟨hpkt, hlen⟩ => ?_⟩
    rw [← hc s', State.memReadPrefix, ← State.memReadAll_of_pkt_eq hpkt, ← hlen]
    rfl
  case ptag =>
    obtain ⟨c, hc⟩ := State.attempt_change (s.memRead 0) fun v => .answer ((tagOf v).setWidth 16)
    refine ⟨c, fun s' ⟨hpkt, _⟩ => ?_⟩
    rw [← hc s', ← State.memRead_of_pkt_eq hpkt]
    rfl
  case pdec =>
    obtain ⟨c, hc⟩ := State.attempt_change s.memReadPacket fun q => .deliver (decodeRawPacket q s.len.toNat)
    refine ⟨c, fun s' ⟨hpkt, hlen⟩ => ?_⟩
    rw [← hc s', ← State.memReadPacket_of_pkt_eq hpkt, ← hlen]
    rfl
  case rev8 | cmb12 | cmb12h | cmb16 | msk7 => exact ⟨.answer _, fun _ _ => rfl⟩
  case rdr r =>
    obtain ⟨c, hc⟩ := State.attempt_change (s.readRegister r) .answer
    refine ⟨c, fun s' (hreg : s'.readRegister r = s.readRegister r) => ?_⟩
    rw [← hc s', ← hreg]
    rfl
  case wrc r v =>
    by_cases hr : r = 1
    · subst hr
      by_cases hv : 1 ≤ v.toNat ∧ v.toNat ≤ 10
      · exact ⟨.setLen (v.setWidth 4) (v.setWidth 16), fun s' _ => exec_wrc_legal hv s'⟩
      · exact ⟨.error .eCfg, fun s' _ => exec_wrc_illegal_value hv s'⟩
    · exact ⟨.error .eIndex, fun s' _ => exec_wrc_illegal_register hr v s'⟩
  case eclr => exact ⟨.clearError, fun _ _ => rfl⟩
  all_goals exact State.runPacket_change s _ _ _

/-! ### Repeated instructions -/

/-- A register without a value is a result register, or none at all: reading it looks at the results alone. -/
theorem State.registerValue_error {s s' : State} {r : Byte} {k : Nat} {e : Err} (hresults : s'.results = s.results)
    (h : s.registerValue r k = .error e) : s'.registerValue r k = .error e := by
  match k with
  | 0 | 1 | 2 | 3 => cases h
  | 4 | 5 | 6 | 7 | 8 | 9 => simpa only [State.registerValue, hresults] using h
  | _ + 10 => exact h

theorem State.readRegister_error {s s' : State} {r : Byte} {e : Err} (hresults : s'.results = s.results)
    (h : s.readRegister r = .error e) : s'.readRegister r = .error e := by
  by_cases hr : r.toNat ≤ 9
  · rw [State.readRegister, registerNumber_legal hr] at h ⊢
    exact State.registerValue_error hresults h
  · rw [State.readRegister, registerNumber_illegal hr] at h ⊢
    exact h

/-- `RDR` leaves the register it read as it read it: only `RDR 0` reads what an error changes, and it raises none. -/
theorem readRegister_of_exec_rdr {r : Byte} {s t : State} (h : exec (.rdr r) s = .next t) :
    t.readRegister r = s.readRegister r := by
  cases hr : s.readRegister r with
  | ok x =>
    rw [exec_rdr_of_ok hr] at h
    cases h
    exact hr
  | error e =>
    simp only [exec, execRdr, hr] at h
    cases h
    exact State.readRegister_error (s := s) rfl hr

/-- An instruction other than `CBYTE` leaves what it reads as it was: `PCLR`, `PSTB`, `WRC` and `CINIT`, which write the
buffer, the range or `ACC`, do not read what they write. -/
theorem SameInputs.of_exec {i : Instr} {s t : State} (hi : ∀ d, i ≠ .cbyte d) (h : exec i s = .next t) :
    SameInputs s t i := by
  have heffect : Effect i s t := exec_effect h
  rcases heffect.pkt_cases with hpkt | ⟨rfl, _⟩ | ⟨j, d, rfl, _⟩
  case inr.inl => trivial
  case inr.inr => trivial
  rcases heffect.len_cases with hlen | ⟨v, rfl, _⟩
  case inr => trivial
  rcases heffect.acc_cases with hacc | ⟨rfl, _⟩ | ⟨d, rfl, _⟩
  case inr.inl => trivial
  case inr.inr => exact absurd rfl (hi d)
  exact .of_eq hpkt hlen (fun _ => hacc) fun _ hrdr => readRegister_of_exec_rdr (hrdr ▸ h)

/-- Settles O26: what the instruction reads is left as it was, so it makes the same change again, and a change made twice
is the change made once. -/
theorem repeatingAnyOperationIsHarmless : Obligations.RepeatingAnyOperationIsHarmless := by
  intro i s t u hi ht hu
  obtain ⟨c, hc⟩ := exists_change i s
  cases (hc s (.refl s i)).symm.trans ht
  cases (hc _ (.of_exec hi ht)).symm.trans hu
  obtain ⟨r, hresponses, htwice⟩ := c.apply_apply s
  exact ⟨r, hresponses, by rw [htwice, List.append_assoc, List.singleton_append]⟩

/-! ### The two datapaths -/

/-- Only register 2 reads `ACC` (R25). -/
theorem State.registerValue_withAcc (s : State) (x : Word16) (r : Byte) {k : Nat} (hk : k ≠ 2) :
    State.registerValue { s with acc := x } r k = s.registerValue r k := by
  match k with
  | 2 => exact absurd rfl hk
  | 0 | 1 | 3 | 4 | 5 | 6 | 7 | 8 | 9 | _ + 10 => rfl

theorem State.readRegister_withAcc (s : State) (x : Word16) {r : Byte} (hr : r ≠ 2) :
    State.readRegister { s with acc := x } r = s.readRegister r := by
  by_cases hr9 : r.toNat ≤ 9
  · have hk : r.toNat ≠ 2 := fun h => hr (BitVec.eq_of_toNat_eq h)
    rw [State.readRegister, State.readRegister, registerNumber_legal hr9]
    exact State.registerValue_withAcc s x r hk
  · rw [State.readRegister, State.readRegister, registerNumber_illegal hr9]

/-- Every instruction but `CBYTE`, `CRD` and `RDR 2` reads the same whatever `ACC` holds. -/
theorem SameInputs.withAcc {i : Instr} (hcbyte : ∀ d, i ≠ .cbyte d) (hcrd : i ≠ .crd) (hrdr : i ≠ .rdr 2) (s : State)
    (x : Word16) : SameInputs s { s with acc := x } i := by
  refine .of_eq rfl rfl (fun hreads => ?acc) fun r hi => State.readRegister_withAcc s x fun hr => ?register
  case acc => exact (hreads.elim (fun ⟨d, hi⟩ => hcbyte d hi) hcrd).elim
  case register => exact hrdr (hr ▸ hi)

/-- Settles O24. An instruction that does not read `ACC` makes the same change whatever `ACC` holds, and the value there
stays (O19); the three instructions of the streaming accumulator have equations that name `ACC` alone. -/
theorem accumulatorAndPacketPathsDoNotInterfere : Obligations.AccumulatorAndPacketPathsDoNotInterfere := by
  refine ⟨fun i s t x hcinit hcbyte hcrd hrdr h => ?packetSide, fun i s t m n st r hi h => ?streamSide⟩
  case packetSide =>
    obtain ⟨c, hc⟩ := exists_change i s
    cases (hc s (.refl s i)).symm.trans h
    have hx : exec i { s with acc := x } = .next (c.apply { s with acc := x }) :=
      hc _ (.withAcc hcbyte hcrd hrdr s x)
    obtain ⟨_, _, hkept⟩ := accumulatorWrittenOnlyByCinitAndCbyte i _ _ hx
    have hacc : (c.apply { s with acc := x }).acc = x := hkept hcinit hcbyte
    rw [hx, Change.apply_withAcc, hacc]
  case streamSide =>
    rcases hi with rfl | ⟨d, rfl⟩ | rfl <;> cases h <;> exact ⟨rfl, rfl, rfl, rfl, rfl⟩

/-! ### The sticky error -/

/-- Settles O22: of the ten effects only that of `ECLR` clears `ERR`, and an error while `ERR` is set keeps the code. -/
theorem stickyErrorClearedOnlyByEclr : Obligations.StickyErrorClearedOnlyByEclr := by
  intro i s t h herr hi
  cases exec_effect h with
  | error c => exact ⟨rfl, if_pos herr⟩
  | eclr heclr => exact absurd heclr hi
  | _ => exact ⟨herr, rfl⟩

/-! ### Stale results -/

/-- No packet result is left: the flags of `PDEC` are 0, the six result registers `NONE`. -/
def State.NoResults (s : State) : Prop :=
  s.status.done = false ∧ s.status.ok = false ∧ s.status.bad = false ∧
  s.results.rTag = none ∧ s.results.rCrc = none ∧ s.results.rKind = none ∧ s.results.rVal = none ∧
  s.results.rWspd = none ∧ s.results.rWdir = none

/-- An instruction leaves the buffer and the range as they were, or it leaves no result (10_state.md R18). -/
theorem Effect.inputsKept_or_noResults {i : Instr} {s t : State} (h : Effect i s t) :
    (t.pkt = s.pkt ∧ t.len = s.len) ∨ t.NoResults := by
  cases h with
  | pclr | pstb | wrc => exact .inr ⟨rfl, rfl, rfl, rfl, rfl, rfl, rfl, rfl, rfl⟩
  | _ => exact .inl ⟨rfl, rfl⟩

/-- A step leaves the buffer and the range as they were, or it leaves no result. -/
theorem step_inputsKept_or_noResults {s t : State} (h : step s = .next t) :
    (t.pkt = s.pkt ∧ t.len = s.len) ∨ t.NoResults := by
  rcases step_cases s with ⟨_, hs⟩ | ⟨_, _, hs⟩ | ⟨_, _, _, _, _, hs⟩ | ⟨_, _, _, _, _, hs⟩
  · cases hs.symm.trans h
    exact .inl ⟨rfl, rfl⟩
  · cases hs.symm.trans h
    exact .inr ⟨rfl, rfl, rfl, rfl, rfl, rfl, rfl, rfl, rfl⟩
  · exact (exec_effect (hs.symm.trans h)).inputsKept_or_noResults
  · cases hs.symm.trans h
    exact .inl ⟨rfl, rfl⟩

/-- Settles O23: a step that changes a byte or the range does not leave both as they were. -/
theorem noStaleResults : Obligations.NoStaleResults := by
  intro s t h hchange
  refine (step_inputsKept_or_noResults h).resolve_left fun ⟨hpkt, hlen⟩ => ?_
  rcases hchange with ⟨a, hread⟩ | hrange
  · exact hread (by rw [hpkt])
  · exact hrange hlen

/-! ### `RESET` against `PCLR` -/

/-- Settles O14, by the equations of the step that takes a `RESET` and of `PCLR`. -/
theorem resetAndPclrDifferOnlyInAccLenAndError : Obligations.ResetAndPclrDifferOnlyInAccLenAndError :=
  fun _ _ hp => ⟨_, _, step_reset hp, exec_pclr _, rfl, rfl, rfl, rfl, rfl⟩

/-! ### Degenerate packets -/

/-- Zeros check to zero, however many (R74). -/
theorem crc16_replicate_zero (n : Nat) : crc16 (List.replicate n 0) = 0 := by
  induction n with
  | zero => exact crc16_nil
  | succ n ih => rw [List.replicate_succ', crc16_concat, ih, ← crcTable, crcTable_zero]

/-- A message followed by two bytes checks to zero exactly when they are its CRC, high byte first: two bytes equal to the
accumulator clear it (O47), and no other accumulator do they clear. -/
theorem crc16_append_pair_eq_zero_iff (m : List Byte) (h l : Byte) : crc16 (m ++ [h, l]) = 0 ↔ crc16 m = h ++ l := by
  have hself : [h, l].foldl crc16Byte (h ++ l) = 0 := by
    rw [List.foldl_cons, List.foldl_cons, crc16Byte_append_self, crc16Byte_append_self]
    rfl
  rw [crc16_append]
  exact (foldl_crc16Byte_injective [h, l]).eq_iff' hself

/-- Settles O52: the first bytes of the all-zero packet are zeros; the range 8 takes the first eight bytes, which are
bytes 0 to 5 and then the pair that has to be their CRC. -/
theorem degenerateAcceptances : Obligations.DegenerateAcceptances := by
  refine ⟨fun n => accepted_eq_true.mpr ?zeros, fun _ _ _ => rfl, fun q => accepted_eq_true.trans ?pair⟩
  case zeros =>
    have hzeros : ∀ k, crc16 ((List.replicate 10 0).take k) = 0 := fun k => by
      rw [List.take_replicate, crc16_replicate_zero]
    exact hzeros n
  case pair => exact crc16_append_pair_eq_zero_iff [q.b0, q.b1, q.b2, q.b3, q.b4, q.b5] q.b6 q.b7

end Sys2Proof.Machine
